-- ==== Sys2Proof/Word.lean ====
section
/-! DEFINITION. The word type. Every value the CORE holds is an unsigned 8-bit number (spec/00_scope.md R7). -/

namespace Sys2Proof

/-- DATA_WIDTH = 8 (R5): registers, memory cells, pc and fl. -/
abbrev Byte := BitVec 8

end Sys2Proof
end

