-- ==== Sys2Proof/Machine/Flags.lean ====
section
/-! DEFINITION. alu_8bit (spec/42_alu.md R87 to R90) and the bits of fl (spec/10_state.md R20). -/

namespace Sys2Proof.Machine

/-- Bit 0 of fl: equal. -/
def flagE (fl : Byte) : Bool := fl.getLsbD 0
/-- Bit 1 of fl: greater. -/
def flagG (fl : Byte) : Bool := fl.getLsbD 1
/-- Bit 2 of fl: less. -/
def flagL (fl : Byte) : Bool := fl.getLsbD 2

/-- R88: computed exactly, then narrowed modulo 256. -/
def aluAdd (a b : Byte) : Byte := BitVec.ofNat 8 (a.toNat + b.toNat)

/-- R89: the low byte of the 16-bit unsigned product. -/
def aluMul (a b : Byte) : Byte := BitVec.ofNat 8 (a.toNat * b.toNat)

/-- R90: unsigned, one-hot, bits 7:3 clear (the spec's decision D4). -/
def aluCmp (a b : Byte) : Byte :=
  if a.toNat = b.toNat then 0b001 else if a.toNat > b.toNat then 0b010 else 0b100

/-- What the ALU drives (R87): `y` for the register file, `flags` for fl; a port the operation does not drive is none (log
entry 18). -/
structure AluOut where
  y     : Option Byte
  flags : Option Byte
  deriving DecidableEq, Repr

/-- R87: `sel` 0 = ADD, 1 = MUL, 2 = CMP, 3 = not used. For 3 the spec says "result 0" and not on which output: the
model drives y with 0 and leaves flags undriven (log entry 18, DESIGN CHOICE). -/
def alu (sel : BitVec 2) (a b : Byte) : AluOut :=
  match sel.toNat with
  | 0 => { y := some (aluAdd a b), flags := none }
  | 1 => { y := some (aluMul a b), flags := none }
  | 2 => { y := none, flags := some (aluCmp a b) }
  | _ => { y := some 0, flags := none }

end Sys2Proof.Machine
end

