-- ==== Sys2Proof/Config.lean ====
section
/-! DEFINITION. The parameters of spec/00_scope.md R5 that an implementation fixes: OPCODE_MAP, BOUNDS_POLICY and
the host's exit statuses. MEM_INIT and the program image are arguments of `launch` (Machine/HostView.lean). -/

namespace Sys2Proof

/-- The twelve instructions, in the order of the table of R59; also the enumeration `op` of R65. -/
inductive Mnemonic where
  | ldi | prn | add | mul | cmp | push | pop | call | ret | jmp | jne | hlt
  deriving DecidableEq, Repr

/-- All twelve, in the order of R59. -/
def Mnemonic.all : List Mnemonic :=
  [.ldi, .prn, .add, .mul, .cmp, .push, .pop, .call, .ret, .jmp, .jne, .hlt]

/-- Column n of R59: how many operand bytes follow the opcode byte. -/
def Mnemonic.operandCount : Mnemonic → Nat
  | .ldi | .add | .mul | .cmp => 2
  | .prn | .push | .pop | .call | .jmp | .jne => 1
  | .ret | .hlt => 0

/-- OPCODE_MAP (R60): a map from the twelve mnemonics to bytes. Its two properties are `OpcodeMap.Wf`. -/
structure OpcodeMap where
  ldi  : Byte
  prn  : Byte
  add  : Byte
  mul  : Byte
  cmp  : Byte
  push : Byte
  pop  : Byte
  call : Byte
  ret  : Byte
  jmp  : Byte
  jne  : Byte
  hlt  : Byte
  deriving DecidableEq, Repr

/-- The byte the map gives a mnemonic. -/
def OpcodeMap.code (m : OpcodeMap) : Mnemonic → Byte
  | .ldi => m.ldi
  | .prn => m.prn
  | .add => m.add
  | .mul => m.mul
  | .cmp => m.cmp
  | .push => m.push
  | .pop => m.pop
  | .call => m.call
  | .ret => m.ret
  | .jmp => m.jmp
  | .jne => m.jne
  | .hlt => m.hlt

/-- BOUNDS_POLICY (R5, R36, R57): what an out-of-range address or register index does. -/
inductive BoundsPolicy where
  | mask   -- addresses mod 256, register indices mod 8
  | fault  -- raise BoundsViolation
  deriving DecidableEq, Repr

/-- The configuration of R33, fixed for the machine: no step writes it (log entry 3). -/
structure Config where
  opcodeMap    : OpcodeMap
  boundsPolicy : BoundsPolicy
  deriving DecidableEq, Repr

/-- EXIT_DECODE and EXIT_BOUNDS (R5, R112): the host's statuses for the two fatal errors (log entry 15). -/
structure ExitStatuses where
  exitDecode : Nat
  exitBounds : Nat
  deriving DecidableEq, Repr

end Sys2Proof
end

