-- ==== Sys2Proof/Machine/Operands.lean ====
section
/-! DEFINITION. The two conversions that BOUNDS_POLICY governs: integers to addresses (spec/20_memory.md R36) and
operand bytes to register indices (spec/30_encoding.md R57). `none` is a raised BoundsViolation. -/

namespace Sys2Proof.Machine

/-- `addr(v)` (R36): v is an exact integer and may be negative or above 255. -/
def addr (p : BoundsPolicy) (v : Int) : Option Byte :=
  match p with
  | .mask => some (BitVec.ofInt 8 v)
  | .fault => if 0 ≤ v ∧ v ≤ 255 then some (BitVec.ofInt 8 v) else none

/-- b[2:0], that is b mod 8, as an index. -/
def lowIndex (b : Byte) : Fin 8 := ⟨b.toNat % 8, Nat.mod_lt _ (by decide)⟩

/-- `reg(b)` (R57). -/
def reg (p : BoundsPolicy) (b : Byte) : Option (Fin 8) :=
  match p with
  | .mask => some (lowIndex b)
  | .fault => if b.toNat ≤ 7 then some (lowIndex b) else none

end Sys2Proof.Machine
end

