-- ==== Sys2Proof/Syntax.lean ====
section
/-! DEFINITION. The instructions (spec/30_encoding.md R56, R59): one constructor per row of spec/opcode_table.json. -/

namespace Sys2Proof

/-- A register operand is kept as the operand BYTE of the encoding: which register it names, or that it names none,
is decided by `reg` under BOUNDS_POLICY when the instruction executes (R57, R73; log entry 11). -/
inductive Instr where
  | ldi  (a imm : Byte)
  | prn  (a : Byte)
  | add  (a b : Byte)
  | mul  (a b : Byte)
  | cmp  (a b : Byte)
  | push (a : Byte)
  | pop  (a : Byte)
  | call (a : Byte)
  | ret
  | jmp  (a : Byte)
  | jne  (a : Byte)
  | hlt
  deriving DecidableEq, Repr

end Sys2Proof
end

