-- ==== Sys2Proof/WellFormed.lean ====
section
/-! DEFINITION. Well-formedness of what a launch supplies: the opcode map, the exit statuses, and an instruction's
register operands. No meaning assumes that an instruction is well formed. -/

namespace Sys2Proof

/-- The two properties R60 asks of a map: the twelve bytes are distinct, and bits 7:6 of each are the operand count
of its mnemonic. -/
abbrev OpcodeMap.Wf (m : OpcodeMap) : Prop :=
  (Mnemonic.all.map m.code).Nodup ∧ ∀ op ∈ Mnemonic.all, (m.code op).toNat / 64 = op.operandCount

abbrev Config.Wf (c : Config) : Prop := c.opcodeMap.Wf

/-- R112: both statuses are nonzero, neither is the load-error status 2, and they differ. -/
abbrev ExitStatuses.Wf (e : ExitStatuses) : Prop :=
  e.exitDecode ≠ 0 ∧ e.exitDecode ≠ 2 ∧ e.exitBounds ≠ 0 ∧ e.exitBounds ≠ 2 ∧ e.exitBounds ≠ e.exitDecode

/-- The operand bytes an instruction names as registers, in operand order (R56). -/
def Instr.regOperands : Instr → List Byte
  | .ldi a _ => [a]
  | .prn a => [a]
  | .add a b => [a, b]
  | .mul a b => [a, b]
  | .cmp a b => [a, b]
  | .push a => [a]
  | .pop a => [a]
  | .call a => [a]
  | .ret => []
  | .jmp a => [a]
  | .jne a => [a]
  | .hlt => []

/-- Every register operand names one of R0..R7 (R11), so that `reg` (R57) raises under neither policy. -/
abbrev Instr.Wf (i : Instr) : Prop := ∀ b ∈ i.regOperands, b.toNat ≤ 7

end Sys2Proof
end

