-- ==== Sys2Proof/Decode.lean ====
section
/-! DEFINITION. The fetch_decode_unit's decoder (spec/30_encoding.md R52 to R66), total on all bytes, and the encoder. -/

namespace Sys2Proof

/-- The default OPCODE_MAP of R59. PRESUMED (log entry 1): the LS-8 family's bytes, not in the source. -/
def defaultOpcodeMap : OpcodeMap :=
  { ldi := 0x82, prn := 0x47, add := 0xA0, mul := 0xA2, cmp := 0xA7, push := 0x45, pop := 0x46, call := 0x50,
    ret := 0x11, jmp := 0x54, jne := 0x56, hlt := 0x01 }

/-- The operand count field `ir[7:6]` (R53). -/
def operandCount (ir : Byte) : Nat := (ir.extractLsb' 6 2).toNat

/-- R66: the instruction is selected by the whole opcode byte; `none` is an illegal byte (R61). -/
def decodeOp (m : OpcodeMap) (ir : Byte) : Option Mnemonic :=
  Mnemonic.all.find? fun op => m.code op == ir

/-- R56: which operand bytes the instruction takes, and as what. -/
def operandsOf (op : Mnemonic) (opA opB : Byte) : Instr :=
  match op with
  | .ldi => .ldi opA opB
  | .prn => .prn opA
  | .add => .add opA opB
  | .mul => .mul opA opB
  | .cmp => .cmp opA opB
  | .push => .push opA
  | .pop => .pop opA
  | .call => .call opA
  | .ret => .ret
  | .jmp => .jmp opA
  | .jne => .jne opA
  | .hlt => .hlt

/-- Decoding the three fetched bytes (R55, R66); operand bytes the instruction does not use are ignored (R69). -/
def decodeFetched (m : OpcodeMap) (ir opA opB : Byte) : Option Instr :=
  (decodeOp m ir).map fun op => operandsOf op opA opB

/-- Why a sequence of bytes is not an instruction. -/
inductive DecodeReject where
  | noBytes                       -- the sequence is empty
  | unknownOpcode (ir : Byte)     -- R61
  | missingOperand (op : Mnemonic) -- fewer than n bytes follow the opcode byte (R52)
  deriving DecidableEq, Repr

/-- Decoding from a sequence of bytes, in ascending address order (R39): the instruction and the bytes after it. -/
def decodeBytes (m : OpcodeMap) : List Byte → Except DecodeReject (Instr × List Byte)
  | [] => .error .noBytes
  | ir :: rest =>
    match decodeOp m ir with
    | none => .error (.unknownOpcode ir)
    | some op =>
      if operandCount ir ≤ rest.length then
        .ok (operandsOf op (rest.getD 0 0) (rest.getD 1 0), rest.drop (operandCount ir))
      else .error (.missingOperand op)

/-- The instruction of a row of spec/opcode_table.json, from its bits numbered as the table numbers them: the first
byte is bits 7..0, the second 15..8, the third 23..16, and every bit from `nbits` on is 0. -/
def tableByte (nbits w k : Nat) : Byte := BitVec.ofNat 8 (w % 2 ^ nbits / 2 ^ (8 * k))

def decodeTableWord (nbits w : Nat) : Option Instr :=
  decodeFetched defaultOpcodeMap (tableByte nbits w 0) (tableByte nbits w 1) (tableByte nbits w 2)

/-! The encoder. -/

def Instr.mnemonic : Instr → Mnemonic
  | .ldi _ _ => .ldi
  | .prn _ => .prn
  | .add _ _ => .add
  | .mul _ _ => .mul
  | .cmp _ _ => .cmp
  | .push _ => .push
  | .pop _ => .pop
  | .call _ => .call
  | .ret => .ret
  | .jmp _ => .jmp
  | .jne _ => .jne
  | .hlt => .hlt

/-- The operand bytes in address order (R39, R52). -/
def Instr.operandBytes : Instr → List Byte
  | .ldi a imm => [a, imm]
  | .prn a => [a]
  | .add a b => [a, b]
  | .mul a b => [a, b]
  | .cmp a b => [a, b]
  | .push a => [a]
  | .pop a => [a]
  | .call a => [a]
  | .ret => []
  | .jmp a => [a]
  | .jne a => [a]
  | .hlt => []

/-- The bytes of an instruction under a map: the opcode byte, then the operands (R52). -/
def encodeWith (m : OpcodeMap) (i : Instr) : List Byte := m.code i.mnemonic :: i.operandBytes

/-- The bytes of an instruction under the default map. -/
def encode (i : Instr) : List Byte := encodeWith defaultOpcodeMap i

end Sys2Proof
end

