-- ==== Sys2Proof/Machine/Defaults.lean ====
section
/-! DEFINITION. The configuration a machine has unless a launch says otherwise (spec/00_scope.md R5). -/

namespace Sys2Proof.Machine

/-- The spec's default map (log entry 1) and default policy `mask` (spec/92_eei_decisions.md D2; log entry 2). -/
def defaultConfig : Config := { opcodeMap := defaultOpcodeMap, boundsPolicy := .mask }

end Sys2Proof.Machine
end

