-- ==== Sys2Proof/Machine/Memory.lean ====
section
/-! DEFINITION. The 256 memory cells (spec/10_state.md R27, spec/20_memory.md R34, R35, R42) as a list of listed cells
in canonical form. A byte address reaches every cell and nothing else, so no access is out of range here. -/

namespace Sys2Proof.Machine

/-- Addresses strictly rising, and no entry equal to what an unlisted address reads as (`Memory.wf`). -/
abbrev Memory := List Host.Cell

/-- What an unlisted address reads as. DESIGN CHOICE (log entry 4): the spec leaves it to MEM_INIT (R51); a launch
lists the MEM_INIT it is given. -/
def unlistedByte : Byte := 0

/-- The cell at an address. -/
def Memory.get (m : Memory) (a : Nat) : Byte :=
  match m with
  | [] => unlistedByte
  | (b, v) :: rest => if b = a then v else Memory.get rest a

/-- List a cell at its place in the rising order, replacing the one that is there. -/
def Memory.insert (m : Memory) (a : Nat) (v : Byte) : Memory :=
  match m with
  | [] => [(a, v)]
  | (b, w) :: rest =>
    if a < b then (a, v) :: (b, w) :: rest
    else if b = a then (a, v) :: rest
    else (b, w) :: Memory.insert rest a v

/-- Set a cell, keeping the canonical form. -/
def Memory.set (m : Memory) (a : Nat) (v : Byte) : Memory :=
  if v = unlistedByte then m.filter fun c => c.1 != a else m.insert a v

/-- The canonical form: addresses 0..255, strictly rising, and no listed cell equal to an unlisted one. -/
abbrev Memory.wf (m : Memory) : Prop :=
  m.Pairwise (fun c d => c.1 < d.1) ∧ ∀ c ∈ m, c.1 < 256 ∧ c.2 ≠ unlistedByte

end Sys2Proof.Machine
end

