-- ==== Sys2Proof/Machine/State.lean ====
section
/-! DEFINITION. The complete machine state of spec/10_state.md R33, with the configuration beside it, and reset (R31). -/

namespace Sys2Proof.Machine

/-- The control FSM's states (R24). -/
inductive Fsm where
  | run
  | halted
  | faulted
  deriving DecidableEq, Repr

/-- `fault_cause` (R25). Value 3 is not used, so it is no constructor (log entry 12). -/
inductive FaultCause where
  | none
  | decodeError
  | boundsViolation
  deriving DecidableEq, Repr

structure State where
  regs       : Vector Byte 8   -- register_file, R7 = SP (R11, R13)
  pc         : Byte            -- program_counter (R17)
  fl         : Byte            -- flags_register (R20)
  mem        : Memory          -- R27
  fsm        : Fsm             -- control_fsm (R24)
  faultCause : FaultCause      -- the fault record (R25)
  faultPc    : Byte
  faultIr    : Byte
  out        : List Byte       -- the output stream, oldest first (R28)
  cfg        : Config          -- read by the step, written by nothing (R33; log entry 3)
  deriving DecidableEq, Repr

/-- Why there is no next state. An exception of the CORE is NOT one of these: it is a next state in FAULTED (R108). -/
inductive Fault where
  /-- Raised by `step` in HALTED: the FSM has no step there (R77). Safe: no state follows. -/
  | haltedNoStep
  /-- Raised by `step` in FAULTED: the FSM has no step there (R78). Safe: no state follows. -/
  | faultedNoStep
  deriving DecidableEq, Repr

/-- Why an instruction has no meaning in the model. -/
inductive Refusal where
  /-- For an arm of `exec` without a meaning; no arm is left that raises it. Safe. -/
  | notModelled (mnemonic : String)
  deriving DecidableEq, Repr

abbrev Result := Host.Outcome State Fault Refusal

/-- R31: the machine right after reset, with the default configuration and no memory cell listed (log entries 1, 2, 4). -/
def State.reset : State :=
  { regs := #v[0, 0, 0, 0, 0, 0, 0, 0xF4], pc := 0, fl := 0, mem := [], fsm := .run, faultCause := .none,
    faultPc := 0, faultIr := 0, out := [], cfg := defaultConfig }

end Sys2Proof.Machine
end

