-- ==== Sys2Proof/Machine/Ops.lean ====
section
/-! DEFINITION. The pseudocode primitives of spec/00_scope.md R8 over State, the generic advance (R75), and taking
an exception (spec/60_exceptions.md R107, R108). There is no return from one (R109). -/

namespace Sys2Proof.Machine

/-- `x[i]`. -/
def State.reg (s : State) (i : Fin 8) : Byte := s.regs[i.val]

/-- `x[i] <- v`. No register is hardwired (R11), and R7 is written like any other (R14). -/
def State.setReg (s : State) (i : Fin 8) (v : Byte) : State := { s with regs := s.regs.set i.val v }

/-- SP is another name for x[7] (R13). -/
def State.sp (s : State) : Byte := s.reg 7

def State.setSp (s : State) (v : Byte) : State := s.setReg 7 v

/-- `MemRead(a, 1)` (R34). -/
def State.memRead (s : State) (a : Byte) : Byte := s.mem.get a.toNat

/-- `MemWrite(a, 1, v)` (R35). -/
def State.memWrite (s : State) (a v : Byte) : State := { s with mem := s.mem.set a.toNat v }

def State.setPc (s : State) (target : Byte) : State := { s with pc := target }

def State.setFl (s : State) (v : Byte) : State := { s with fl := v }

/-- `emit(v)` (R86). -/
def State.emit (s : State) (v : Byte) : State := { s with out := s.out ++ [v] }

/-- `halt` (R103): pc keeps the address of the HLT byte (the spec's decision D6). -/
def State.halt (s : State) : State := { s with fsm := .halted }

/-- `addr(v)` under the state's policy. -/
def State.addr (s : State) (v : Int) : Option Byte := Machine.addr s.cfg.boundsPolicy v

/-- `reg(b)` under the state's policy. -/
def State.regIndex (s : State) (b : Byte) : Option (Fin 8) := Machine.reg s.cfg.boundsPolicy b

/-- The opcode byte of a mnemonic: the `ir` of a step that executes it (log entry 9). -/
def State.opcode (s : State) (op : Mnemonic) : Byte := s.cfg.opcodeMap.code op

/-- Fault entry (R108): exactly these four writes. -/
def State.raise (s : State) (cause : FaultCause) (ir : Byte) : State :=
  { s with fsm := .faulted, faultCause := cause, faultPc := s.pc, faultIr := ir }

/-- The generic advance `pc <- addr(pc + 1 + n)`, n = ir[7:6] (R75). No statement before it moves pc. -/
def State.advance (s : State) (op : Mnemonic) : Option State :=
  (s.addr (s.pc.toNat + 1 + operandCount (s.opcode op))).map s.setPc

/-- Every instruction ends here. Its pseudocode either ran to the end, or raised BoundsViolation: then the state is the
one before the instruction with only the fault entry applied (R10, R107). -/
def finish (s : State) (op : Mnemonic) (result : Option State) : Result :=
  match result with
  | some t => .next t
  | none => .next (s.raise .boundsViolation (s.opcode op))

end Sys2Proof.Machine
end

