-- ==== Sys2Proof/Machine/Arith.lean ====
section
/-! DEFINITION. ADD, MUL and CMP (spec/42_alu.md). The register checks are in operand order (R73). -/

namespace Sys2Proof.Machine

/-- R91. -/
def execAdd (a b : Byte) (s : State) : Result :=
  finish s .add do
    let i ← s.regIndex a
    let j ← s.regIndex b
    (s.setReg i (aluAdd (s.reg i) (s.reg j))).advance .add

/-- R92. -/
def execMul (a b : Byte) (s : State) : Result :=
  finish s .mul do
    let i ← s.regIndex a
    let j ← s.regIndex b
    (s.setReg i (aluMul (s.reg i) (s.reg j))).advance .mul

/-- R93. -/
def execCmp (a b : Byte) (s : State) : Result :=
  finish s .cmp do
    let i ← s.regIndex a
    let j ← s.regIndex b
    (s.setFl (aluCmp (s.reg i) (s.reg j))).advance .cmp

end Sys2Proof.Machine
end

