-- ==== Sys2Proof/Machine/Stack.lean ====
section
/-! DEFINITION. The stack operations, and PUSH and POP (spec/43_stack.md). Statements are read in order (R9), which
decides what R7 as an operand means (the spec's decision D17). -/

namespace Sys2Proof.Machine

/-- `x[7] <- addr(x[7] - 1)`, the pre-decrement of PUSH and CALL. -/
def State.decSp (s : State) : Option State := (s.addr (s.sp.toNat - 1)).map s.setSp

/-- `x[7] <- addr(x[7] + 1)`, the post-increment of POP and RET. -/
def State.incSp (s : State) : Option State := (s.addr (s.sp.toNat + 1)).map s.setSp

/-- R95: x[a] is read after the decrement. -/
def execPush (a : Byte) (s : State) : Result :=
  finish s .push do
    let i ← s.regIndex a
    let t ← s.decSp
    (t.memWrite t.sp (t.reg i)).advance .push

/-- R96: x[7] is read for the increment after x[a] is written. -/
def execPop (a : Byte) (s : State) : Result :=
  finish s .pop do
    let i ← s.regIndex a
    let t ← (s.setReg i (s.memRead s.sp)).incSp
    t.advance .pop

end Sys2Proof.Machine
end

