-- ==== Sys2Proof/Machine/Control.lean ====
section
/-! DEFINITION. CALL, RET, JMP and JNE (spec/44_control_transfer.md). A taken jump does not also advance (R75). -/

namespace Sys2Proof.Machine

/-- R98: the return address is addr(pc + 2), and x[a] is read after the decrement. -/
def execCall (a : Byte) (s : State) : Result :=
  finish s .call do
    let i ← s.regIndex a
    let t ← s.decSp
    let ra ← s.addr (s.pc.toNat + 2)
    let u := t.memWrite t.sp ra
    some (u.setPc (u.reg i))

/-- R99. -/
def execRet (s : State) : Result :=
  finish s .ret (s.setPc (s.memRead s.sp)).incSp

/-- R100. -/
def execJmp (a : Byte) (s : State) : Result :=
  finish s .jmp do
    let i ← s.regIndex a
    some (s.setPc (s.reg i))

/-- R101: regA is checked whether or not the jump is taken (the spec's decision D3). -/
def execJne (a : Byte) (s : State) : Result :=
  finish s .jne do
    let i ← s.regIndex a
    if flagE s.fl then s.advance .jne else some (s.setPc (s.reg i))

end Sys2Proof.Machine
end

