-- ==== Sys2Proof/Machine/LoadOutput.lean ====
section
/-! DEFINITION. LDI and PRN (spec/41_load_output.md). -/

namespace Sys2Proof.Machine

/-- R84. -/
def execLdi (a imm : Byte) (s : State) : Result :=
  finish s .ldi do
    let i ← s.regIndex a
    (s.setReg i imm).advance .ldi

/-- R85. -/
def execPrn (a : Byte) (s : State) : Result :=
  finish s .prn do
    let i ← s.regIndex a
    (s.emit (s.reg i)).advance .prn

end Sys2Proof.Machine
end

