-- ==== Sys2Proof/Machine/System.lean ====
section
/-! DEFINITION. HLT (spec/45_halt.md). -/

namespace Sys2Proof.Machine

/-- R103. -/
def execHlt (s : State) : Result := finish s .hlt (some s.halt)

end Sys2Proof.Machine
end

