-- ==== Sys2Proof/Machine/Cycle.lean ====
section
/-! DEFINITION. One step in RUN (spec/40_execution_cycle.md R71, R72, R83): the eager fetch of three bytes, the decode,
and the instruction. -/

namespace Sys2Proof.Machine

/-- What the latches ir, opA, opB hold during the step (R29). -/
structure Fetched where
  ir  : Byte
  opA : Byte
  opB : Byte
  deriving DecidableEq, Repr

/-- R71: all three bytes are read for every instruction; `none` where addr(pc+1) or addr(pc+2) raises. -/
def fetch (s : State) : Option Fetched := do
  let a1 ← s.addr (s.pc.toNat + 1)
  let a2 ← s.addr (s.pc.toNat + 2)
  some { ir := s.memRead s.pc, opA := s.memRead a1, opB := s.memRead a2 }

/-- The instruction of fetched bytes under the state's map (R72). -/
def State.decode (s : State) (f : Fetched) : Option Instr := decodeFetched s.cfg.opcodeMap f.ir f.opA f.opB

/-- R83, with the priority of R110: fetch addresses before the opcode, the opcode before the rest. -/
def cycle (s : State) : Result :=
  match fetch s with
  | none => .next (s.raise .boundsViolation (s.memRead s.pc))
  | some f =>
    match s.decode f with
    | none => .next (s.raise .decodeError f.ir)
    | some i => exec i s

/-- The step of each FSM state (R70): HALTED and FAULTED have none (R77, R78; log entry 5). -/
def stepOf (s : State) : Result :=
  match s.fsm with
  | .run => cycle s
  | .halted => .fault .haltedNoStep
  | .faulted => .fault .faultedNoStep

/-- Store a word of the opcode table at pc, pc + 1 and pc + 2 (mod 256), the first byte at pc. -/
def storeFetchWord (s : State) (nbits w : Nat) : State :=
  ((s.memWrite s.pc (tableByte nbits w 0)).memWrite (s.pc + 1) (tableByte nbits w 1)).memWrite (s.pc + 2)
    (tableByte nbits w 2)

end Sys2Proof.Machine
end

