-- ==== Sys2Proof/Machine/Step.lean ====
section
/-! DEFINITION. The step function and where the next instruction is fetched from (spec/40_execution_cycle.md R83). -/

namespace Sys2Proof.Machine

def step (s : State) : Host.Outcome State Fault Refusal := stepOf s

/-- The state with an instruction of the opcode table where `step` fetches next (log entry 7). -/
def State.withFetchWord (s : State) (nbits w : Nat) : State := storeFetchWord s nbits w

end Sys2Proof.Machine
end

