-- ==== Sys2Proof/Machine/Datapath.lean ====
section
/-! DEFINITION. The six blocks as the spec's decision D12 wires them: what the control FSM asserts for one instruction
(the ports of spec/10_state.md R16, R19, R23, R27, spec/41_load_output.md R86, spec/42_alu.md R87), computed from the
state before the instruction, and what the blocks do with it. `exec` does not use it: it is a second design, to be
proved equal to the first. -/

namespace Sys2Proof.Machine

/-- The ports of one step with their data. `none` is an enable not asserted, or a select or an address that the
instruction does not need, which the spec leaves open (log entry 18). -/
structure Signals where
  ra    : Option (Fin 8) := none         -- ra_idx (R16)
  rb    : Option (Fin 8) := none         -- rb_idx (R16)
  sel   : Option (BitVec 2) := none      -- the ALU select (R82, R87)
  memRd : Option Byte := none            -- mem_addr of the read of POP and RET (R27)
  w     : Option (Fin 8 × Byte) := none  -- w_en, w_idx, w_data (R16)
  sp    : Option Byte := none            -- sp_en, sp_data_in (R16)
  mem   : Option (Byte × Byte) := none   -- mem_we, mem_addr, mem_wdata (R27)
  fl    : Option Byte := none            -- fl_en, fl_in (R23)
  out   : Option Byte := none            -- out_valid, out_data (R86)
  adv   : Option Nat := none             -- adv_en, adv_len (R19)
  ld    : Option Byte := none            -- ld_en, ld_val (R19)
  halt  : Bool := false                  -- fsm <- HALTED (R70)
  deriving DecidableEq, Repr

/-- x[i] as it reads once R7 holds v: what PUSH and CALL read after the decrement (R15). -/
def regAfterSp (s : State) (v : Byte) (i : Fin 8) : Byte := if i = 7 then v else s.reg i

/-- An ALU instruction on x[r] and x[q]: the FSM drives the select, `y` goes to x[r] and `flags` to fl (R87). -/
def aluSignals (sel : BitVec 2) (r q : Fin 8) (s : State) : Signals :=
  let o := alu sel (s.reg r) (s.reg q)
  { ra := some r, rb := some q, sel := some sel, w := o.y.map fun y => (r, y), fl := o.flags, adv := some 3 }

/-- What the control FSM asserts for an instruction; `none` is a raised BoundsViolation. -/
def signals (i : Instr) (s : State) : Option Signals :=
  match i with
  | .ldi a imm => (s.regIndex a).map fun r => { w := some (r, imm), adv := some 3 }
  | .prn a => (s.regIndex a).map fun r => { ra := some r, out := some (s.reg r), adv := some 2 }
  | .add a b => do
    let r ← s.regIndex a
    let q ← s.regIndex b
    some (aluSignals 0 r q s)
  | .mul a b => do
    let r ← s.regIndex a
    let q ← s.regIndex b
    some (aluSignals 1 r q s)
  | .cmp a b => do
    let r ← s.regIndex a
    let q ← s.regIndex b
    some (aluSignals 2 r q s)
  | .push a => do
    let r ← s.regIndex a
    let v ← s.addr (s.sp.toNat - 1)
    some { ra := some r, sp := some v, mem := some (v, regAfterSp s v r), adv := some 2 }
  | .pop a => do
    let r ← s.regIndex a
    let loaded := s.memRead s.sp
    let v ← s.addr ((if r = 7 then loaded else s.sp).toNat + 1)
    some { memRd := some s.sp, w := some (r, loaded), sp := some v, adv := some 2 }
  | .call a => do
    let r ← s.regIndex a
    let v ← s.addr (s.sp.toNat - 1)
    let next ← s.addr (s.pc.toNat + 2)
    some { ra := some r, sp := some v, mem := some (v, next), ld := some (regAfterSp s v r) }
  | .ret => (s.addr (s.sp.toNat + 1)).map fun v => { memRd := some s.sp, sp := some v, ld := some (s.memRead s.sp) }
  | .jmp a => (s.regIndex a).map fun r => { ra := some r, ld := some (s.reg r) }
  | .jne a => (s.regIndex a).map fun r =>
      if flagE s.fl then { ra := some r, adv := some 2 } else { ra := some r, ld := some (s.reg r) }
  | .hlt => some { halt := true }

/-- The register file's two write ports: where both name R7 the stack-pointer write wins (R16). -/
def writeRegs (g : Signals) (r : Vector Byte 8) : Vector Byte 8 :=
  let r := match g.w with
    | some (i, v) => r.set i.val v
    | none => r
  match g.sp with
  | some v => r.set 7 v
  | none => r

/-- The program counter: at most one of its enables is asserted; with neither, pc holds (R19). -/
def nextPc (g : Signals) (s : State) : Option Byte :=
  match g.ld, g.adv with
  | some v, _ => some v
  | none, some len => s.addr (s.pc.toNat + len)
  | none, none => some s.pc

/-- All blocks take their inputs at once. -/
def applySignals (g : Signals) (s : State) : Option State :=
  (nextPc g s).map fun p =>
    { s with
      regs := writeRegs g s.regs
      mem := match g.mem with
        | some (a, v) => s.mem.set a.toNat v
        | none => s.mem
      fl := g.fl.getD s.fl
      out := s.out ++ g.out.toList
      pc := p
      fsm := if g.halt then .halted else s.fsm }

/-- One instruction through the blocks, precise like `finish` (R107). -/
def blockExec (i : Instr) (s : State) : Result :=
  match (signals i s).bind fun g => applySignals g s with
  | some t => .next t
  | none => .next (s.raise .boundsViolation (s.opcode i.mnemonic))

/-- What the control FSM asserts in the step from s (R82). In HALTED and FAULTED, and where the step raises, no enable
is asserted (R10, R19, R77, R78), and the model drives no select either (log entry 18). -/
def controlSignals (s : State) : Signals :=
  match s.fsm, (fetch s).bind s.decode with
  | .run, some i => ((signals i s).filter fun g => (nextPc g s).isSome).getD {}
  | _, _ => {}

end Sys2Proof.Machine
end

