-- ==== Sys2Proof/Machine/Ports.lean ====
section
/-! DEFINITION. The outputs of the blocks as functions of the state (the interfaces of the spec's decision D12): the
status ports of control_fsm, program_counter and flags_register, the output port, and the fetch_decode_unit. -/

namespace Sys2Proof.Machine

/-- The codes of R25 and R104. -/
def FaultCause.code : FaultCause → BitVec 2
  | .none => 0
  | .decodeError => 1
  | .boundsViolation => 2

/-- R82, with the outputs of R19 and R23. -/
structure StatusPorts where
  running    : Bool
  halted     : Bool
  faulted    : Bool
  faultCause : BitVec 2
  faultPc    : Byte
  faultIr    : Byte
  pc         : Byte
  fl         : Byte
  deriving DecidableEq, Repr

def statusPorts (s : State) : StatusPorts :=
  { running := s.fsm = .run, halted := s.fsm = .halted, faulted := s.fsm = .faulted,
    faultCause := s.faultCause.code, faultPc := s.faultPc, faultIr := s.faultIr, pc := s.pc, fl := s.fl }

/-- The output port during the step from s to t (R86): `some v` is out_valid with out_data = v. -/
def outPort (s t : State) : Option Byte := (t.out.drop s.out.length).head?

/-- R65, the outputs of the fetch_decode_unit in the step from s, to be read in RUN. The spec gives no value for a port
whose byte is not read or whose check raises; the model's choice (log entry 18, DESIGN CHOICE) is none there: opA and
opB (with imm) where their own read is not made; idxA and idxB where the instruction names no such register, where
`reg` raises on it, and where the fetch itself raises. -/
structure FetchPorts where
  memReads  : List (Byte × Byte)  -- mem_addr with mem_rdata, in order
  ir        : Byte
  opA       : Option Byte
  opB       : Option Byte
  op        : Option Mnemonic
  legal     : Bool
  n         : Nat
  idxA      : Option (Fin 8)
  idxB      : Option (Fin 8)
  boundsErr : Bool
  imm       : Option Byte
  deriving DecidableEq, Repr

/-- The reads at these addresses, each with its byte, up to the first address that raises. -/
def readsUntilRaise (s : State) : List (Option Byte) → List (Byte × Byte)
  | some a :: rest => (a, s.memRead a) :: readsUntilRaise s rest
  | _ => []

/-- The reads of the fetch, in order (R55, R71). The one at addr(pc+1) is made even where addr(pc+2) raises. -/
def fetchReads (s : State) : List (Byte × Byte) :=
  readsUntilRaise s [some s.pc, s.addr (s.pc.toNat + 1), s.addr (s.pc.toNat + 2)]

/-- The operand bytes that the instruction at pc names as registers; none where there is no such instruction. Where the
fetch raises, also at pc = 254 where opA was read, the spec does not say what idx_a and idx_b carry: the model names no
register there (log entry 18, DESIGN CHOICE). -/
def namedRegisters (s : State) : List Byte :=
  match (fetch s).bind s.decode with
  | some i => i.regOperands
  | none => []

def fetchPorts (s : State) : FetchPorts :=
  let ir := s.memRead s.pc
  let op := decodeOp s.cfg.opcodeMap ir
  let operand (k : Nat) := (fetchReads s)[k]?.map (·.2)
  { memReads := fetchReads s, ir := ir, opA := operand 1, opB := operand 2, op := op, legal := op.isSome,
    n := operandCount ir, idxA := (namedRegisters s)[0]?.bind s.regIndex, idxB := (namedRegisters s)[1]?.bind s.regIndex,
    boundsErr := (fetch s).isNone || (namedRegisters s).any fun b => (s.regIndex b).isNone,
    imm := operand 2 }

end Sys2Proof.Machine
end

