-- ==== Sys2Proof/Machine/HostView.lean ====
section
/-! DEFINITION. What the host does to the CORE and sees of it: launch (spec/70_reset_and_hazards.md R121), reset (R119),
the end of a run (spec/40_execution_cycle.md R79), and the exit status and the report (spec/60_exceptions.md R112). -/

namespace Sys2Proof.Machine

/-- `rst` (R119): every block takes its reset value; memory is not written, and the configuration stays (log entry 10). -/
def applyReset (s : State) : State := { State.reset with mem := s.mem, cfg := s.cfg }

/-- Image byte k goes to address a + k, in file order (R121). -/
def loadImage (m : Memory) (a : Nat) : List Byte → Memory
  | [] => m
  | b :: bs => loadImage (m.set a b) (a + 1) bs

/-- The state at the first step (R51, R121): the image at address 0, MEM_INIT elsewhere. An image longer than 256
bytes is no valid launch (the spec's decision D15). -/
def launch (c : Config) (memInit : Memory) (image : List Byte) : Option State :=
  if image.length ≤ 256 then some { State.reset with mem := loadImage memInit 0 image, cfg := c } else none

/-- The outcome of an ended run (R79). -/
inductive RunOutcome where
  | halted
  | faulted (cause : FaultCause) (pc ir : Byte)
  deriving DecidableEq, Repr

/-- `none` while the run goes on. -/
def runOutcome (s : State) : Option RunOutcome :=
  match s.fsm with
  | .run => none
  | .halted => some .halted
  | .faulted => some (.faulted s.faultCause s.faultPc s.faultIr)

/-- The observation of an ended run (R79). -/
structure Observation where
  outcome : RunOutcome
  out     : List Byte
  regs    : Vector Byte 8
  fl      : Byte
  pc      : Byte
  mem     : Memory
  deriving DecidableEq, Repr

def observe (s : State) : Option Observation :=
  (runOutcome s).map fun o => { outcome := o, out := s.out, regs := s.regs, fl := s.fl, pc := s.pc, mem := s.mem }

/-- The process exit status of an end state (R112). -/
def exitStatus (e : ExitStatuses) (s : State) : Option Nat :=
  match runOutcome s with
  | some .halted => some 0
  | some (.faulted .decodeError _ _) => some e.exitDecode
  | some (.faulted .boundsViolation _ _) => some e.exitBounds
  | some (.faulted .none _ _) => none
  | none => none

/-- What the host reports at the end of a run, beyond the output lines (R112). It is the data of the report: the spec does
not fix how the host writes the bytes out (log entry 15). -/
inductive HostReport where
  | nothing
  | unknownOpcode (ir pc : Byte)
  | boundsViolation (ir pc : Byte)
  deriving DecidableEq, Repr

/-- The words R112 puts into the report. -/
def HostReport.words : HostReport → Option String
  | .nothing => none
  | .unknownOpcode _ _ => none
  | .boundsViolation _ _ => some "bounds violation"

/-- The report of an end state (R112); none while the run goes on. -/
def hostReport (s : State) : Option HostReport :=
  match runOutcome s with
  | some .halted => some .nothing
  | some (.faulted .decodeError pc ir) => some (.unknownOpcode ir pc)
  | some (.faulted .boundsViolation pc ir) => some (.boundsViolation ir pc)
  | some (.faulted .none _ _) => none
  | none => none

/-- The host's rendering of the output stream (R86): one decimal line per value. -/
def hostLines (s : State) : List String := s.out.map fun v => toString v.toNat

end Sys2Proof.Machine
end

