-- ==== Sys2Proof/Safety.lean ====
section
/-! DEFINITION. What claims are stated in: the state invariant (spec/10_state.md R32), the conditions under which a
bounds check passes, and the end of a run (spec/40_execution_cycle.md R79). -/

namespace Sys2Proof

open Machine

/-- R32, with the memory's canonical form and a legal opcode map (R60). That bytes are in [0,255] is in their type;
that `out` only grows relates two states and is a statement of its own. -/
structure Inv (s : State) : Prop where
  mem        : s.mem.wf
  flHigh     : s.fl.toNat < 8
  faultCause : s.faultCause = .none ↔ s.fsm ≠ .faulted
  cfg        : s.cfg.Wf

/-- `addr(v)` does not raise (R36). -/
abbrev AddrOk (s : State) (v : Int) : Prop := s.cfg.boundsPolicy = .fault → 0 ≤ v ∧ v ≤ 255

/-- `reg(b)` does not raise (R57). -/
abbrev RegOk (s : State) (b : Byte) : Prop := s.cfg.boundsPolicy = .fault → b.toNat ≤ 7

/-- The three bytes at pc, pc + 1 and pc + 2 (mod 256) begin with an encoding of i under the state's map. -/
def PlacedAtPc (i : Instr) (s : State) : Prop :=
  encodeWith s.cfg.opcodeMap i <+: [s.memRead s.pc, s.memRead (s.pc + 1), s.memRead (s.pc + 2)]

/-- A run from s ends in t: some number of steps lead there, and t is the first state out of RUN (R79). -/
def EndsIn (s t : State) : Prop := t.fsm ≠ .run ∧ ∃ k, core.run k s = .next t

/-- A run that ends by HLT (R78: the postcondition of a claim that a program completes). -/
def CompletesIn (s t : State) : Prop := EndsIn s t ∧ t.fsm = .halted

/-- A state from which no step ends in the fatal-error state. -/
def NeverFaults (s : State) : Prop := ∀ k t, core.run k s = .next t → t.fsm ≠ .faulted

end Sys2Proof
end

