-- ==== Sys2Proof/Certificates/Slice0/Obligations.lean ====
section
/-! DEFINITION. The statements, in the order of OBLIGATIONS.json. `s.cfg.opcodeMap.Wf` is the restriction R60 puts on a
map, and `s.cfg.boundsPolicy = .fault → …` says when no bounds check raises; under `mask` it holds of itself. -/

open Sys2Proof Sys2Proof.Machine

/-! Helpers of the statements. -/

/-- The state after a BoundsViolation raised in s with opcode byte ir: R108 written out. -/
def Sys2Proof.boundsEntry (s : State) (ir : Byte) : State :=
  { s with fsm := .faulted, faultCause := .boundsViolation, faultPc := s.pc, faultIr := ir }

/-- The state after a DecodeError raised in s with opcode byte ir: R108 written out. -/
def Sys2Proof.decodeEntry (s : State) (ir : Byte) : State :=
  { s with fsm := .faulted, faultCause := .decodeError, faultPc := s.pc, faultIr := ir }

/-- The fetch of any instruction at pc 254 or 255 raises under `fault` (R55): a clause of the statements about those
instructions whose own effect has no check that fails there. The fault entry it takes is log entry 6 (R107, R108); that
`exec` itself does not repeat the fetch check, and still answers at those pcs, is log entry 14. -/
def Sys2Proof.FetchRaisesNearTop (s : State) : Prop :=
  s.fsm = .run → s.cfg.boundsPolicy = .fault → 254 ≤ s.pc.toNat → step s = .next (boundsEntry s (s.memRead s.pc))

/-- The column "writes" of R15, as register indices. -/
def Sys2Proof.writtenRegs : Instr → List (Fin 8)
  | .ldi a _ | .add a _ | .mul a _ => [lowIndex a]
  | .pop a => [lowIndex a, 7]
  | .push _ | .call _ | .ret => [7]
  | .prn _ | .cmp _ _ | .jmp _ | .jne _ | .hlt => []

/-- Both columns of R15: every register an instruction reads or writes. -/
def Sys2Proof.touchedRegs : Instr → List (Fin 8)
  | .ldi a _ | .prn a | .jmp a | .jne a => [lowIndex a]
  | .add a b | .mul a b | .cmp a b => [lowIndex a, lowIndex b]
  | .push a | .pop a | .call a => [lowIndex a, 7]
  | .ret => [7]
  | .hlt => []

/-! Encoding and decoding. -/

/-- R66: the decode function under the default map (the spec's decision D1, log entry 1), and under any legal map. -/
def Obligations.DecodeMatchesOpcodeMap : Prop :=
  (∀ ir : Byte, decodeOp defaultOpcodeMap ir =
    if ir = 0x82 then some .ldi else if ir = 0x47 then some .prn else if ir = 0xA0 then some .add
    else if ir = 0xA2 then some .mul else if ir = 0xA7 then some .cmp else if ir = 0x45 then some .push
    else if ir = 0x46 then some .pop else if ir = 0x50 then some .call else if ir = 0x11 then some .ret
    else if ir = 0x54 then some .jmp else if ir = 0x56 then some .jne else if ir = 0x01 then some .hlt else none) ∧
  ∀ m : OpcodeMap, m.Wf → ∀ ir op, decodeOp m ir = some op ↔ m.code op = ir

/-- Words written out from the encodings of R59 (first byte in bits 7..0), and two that are no instruction. The byte
values are the spec's decision D1 (log entry 1). -/
def Obligations.TableWordsDecode : Prop :=
  decodeTableWord 24 0x080082 = some (.ldi 0 8) ∧ decodeTableWord 16 0x0347 = some (.prn 3) ∧
  decodeTableWord 24 0x0201A0 = some (.add 1 2) ∧ decodeTableWord 24 0x0201A7 = some (.cmp 1 2) ∧
  decodeTableWord 16 0x0745 = some (.push 7) ∧ decodeTableWord 16 0x0150 = some (.call 1) ∧
  decodeTableWord 8 0x11 = some .ret ∧ decodeTableWord 8 0x01 = some .hlt ∧
  decodeTableWord 8 0x08 = none ∧ decodeTableWord 16 0x0155 = none

/-- The bytes of every instruction under the default map of R59 (LS-8 values, the spec's decision D1, log entry 1). -/
def Obligations.DefaultEncodingsAreTabulated : Prop :=
  ∀ a b : Byte, encode (.ldi a b) = [0x82, a, b] ∧ encode (.prn a) = [0x47, a] ∧ encode (.add a b) = [0xA0, a, b] ∧
    encode (.mul a b) = [0xA2, a, b] ∧ encode (.cmp a b) = [0xA7, a, b] ∧ encode (.push a) = [0x45, a] ∧
    encode (.pop a) = [0x46, a] ∧ encode (.call a) = [0x50, a] ∧ encode .ret = [0x11] ∧ encode (.jmp a) = [0x54, a] ∧
    encode (.jne a) = [0x56, a] ∧ encode .hlt = [0x01]

/-- R54: no byte with top bits 11 is an instruction, whatever the legal map. -/
def Obligations.ThreeOperandPatternIsIllegal : Prop :=
  ∀ (m : OpcodeMap) (ir : Byte), m.Wf → ir.extractLsb' 6 2 = 0b11#2 → decodeOp m ir = none

/-- R52: one opcode byte followed by n operand bytes, n = ir[7:6] in {0, 1, 2}. -/
def Obligations.EncodingIsOpcodeThenCountedOperands : Prop :=
  ∀ (m : OpcodeMap) (i : Instr), m.Wf → ∃ ir operands, encodeWith m i = ir :: operands ∧
    operands.length = (ir.extractLsb' 6 2).toNat ∧ operands.length ≤ 2

/-- Headline: decoding the bytes of any instruction, with every operand byte at every value, gives it back, under every
legal map and whatever bytes follow. -/
def Obligations.DecodeOfEncodeIsIdentity : Prop :=
  ∀ (m : OpcodeMap) (i : Instr) (rest : List Byte), m.Wf → decodeBytes m (encodeWith m i ++ rest) = .ok (i, rest)

/-- The other direction: what decodes to an instruction is its encoding and nothing else. -/
def Obligations.DecodedBytesAreTheEncoding : Prop :=
  ∀ (m : OpcodeMap) (bytes rest : List Byte) (i : Instr), m.Wf → decodeBytes m bytes = .ok (i, rest) →
    bytes = encodeWith m i ++ rest

/-- R69: operand bytes an instruction does not use affect nothing in its decoding. -/
def Obligations.UnusedOperandBytesAreIgnored : Prop :=
  ∀ (m : OpcodeMap) (ir x x' y y' : Byte) (op : Mnemonic), decodeOp m ir = some op →
    (op.operandCount = 0 → decodeFetched m ir x y = decodeFetched m ir x' y') ∧
    (op.operandCount = 1 → decodeFetched m ir x y = decodeFetched m ir x y')

/-! Memory, addresses, register indices. -/

/-- R35: a write sets its own cell, and changes nothing else; the value stays until another write to that cell. -/
def Obligations.MemWriteSetsOneCellUntilRewritten : Prop :=
  ∀ (s : State) (a v : Byte),
    (∀ c, c ≠ a → (s.memWrite a v).memRead c = s.memRead c) ∧ { s.memWrite a v with mem := s.mem } = s ∧
    ∀ later : List (Byte × Byte), (∀ w ∈ later, w.1 ≠ a) →
      (later.foldl (fun t w => t.memWrite w.1 w.2) (s.memWrite a v)).memRead a = v

/-- The model's own form of memory (log entry 4): canonical memories with the same 256 bytes are the same data. -/
def Obligations.CanonicalMemoryIsItsBytes : Prop :=
  ∀ m n : Memory, m.wf → n.wf → (∀ a, a < 256 → m.get a = n.get a) → m = n

/-- The function of R36 (BOUNDS_POLICY is the spec's decision D2, log entry 2): mod 256 under `mask`; in range or no
address under `fault`. -/
def Obligations.AddrWrapsOrChecks : Prop :=
  ∀ (s : State) (v : Int),
    (s.cfg.boundsPolicy = .mask → ∃ b, s.addr v = some b ∧ (b.toNat : Int) = v % 256) ∧
    (s.cfg.boundsPolicy = .fault → 0 ≤ v ∧ v ≤ 255 → ∃ b, s.addr v = some b ∧ (b.toNat : Int) = v) ∧
    (s.cfg.boundsPolicy = .fault → v < 0 ∨ 255 < v → s.addr v = none)

/-- The function of R57 (the spec's decision D2, log entry 2): bits 2:0 under `mask`; 0..7 or no register under `fault`. -/
def Obligations.RegWrapsOrChecks : Prop :=
  ∀ (s : State) (b : Byte),
    (s.cfg.boundsPolicy = .mask → ∃ i, s.regIndex b = some i ∧ i.val = (b.extractLsb' 0 3).toNat) ∧
    (s.cfg.boundsPolicy = .fault → b.toNat ≤ 7 → ∃ i, s.regIndex b = some i ∧ i.val = b.toNat) ∧
    (s.cfg.boundsPolicy = .fault → 7 < b.toNat → s.regIndex b = none)

/-! alu_8bit. -/

/-- R88 and R89. -/
def Obligations.AluAddAndMulWrap : Prop :=
  ∀ a b : Byte, (aluAdd a b).toNat = (a.toNat + b.toNat) % 256 ∧ (aluMul a b).toNat = a.toNat * b.toNat % 256

/-- R90 (the spec's decision D4, log entry 8): unsigned; exactly one of bits 2:0 set, and bits 7:3 clear. -/
def Obligations.AluCmpIsUnsignedOneHot : Prop :=
  ∀ a b : Byte, (a.toNat = b.toNat → aluCmp a b = 0b00000001) ∧ (a.toNat > b.toNat → aluCmp a b = 0b00000010) ∧
    (a.toNat < b.toNat → aluCmp a b = 0b00000100)

/-! Each instruction: its encoding, the next state of its own effect with everything else unchanged, and the state
where it raises. -/

/-- R84. The raise clause is the model's fault entry (R107, R108; the spec's decisions D7 and D8; log entry 6). -/
def Obligations.LdiLoadsImmediate : Prop :=
  ∀ (s : State) (a imm : Byte), s.cfg.opcodeMap.Wf →
    encodeWith s.cfg.opcodeMap (.ldi a imm) = [s.cfg.opcodeMap.code .ldi, a, imm] ∧
    ((s.cfg.boundsPolicy = .fault → a.toNat ≤ 7 ∧ s.pc.toNat ≤ 252) →
      exec (.ldi a imm) s = .next { s with regs := s.regs.set (lowIndex a).val imm, pc := s.pc + 3 }) ∧
    (s.cfg.boundsPolicy = .fault → ¬ (a.toNat ≤ 7 ∧ s.pc.toNat ≤ 252) →
      exec (.ldi a imm) s = .next (boundsEntry s (s.cfg.opcodeMap.code .ldi)))

/-- R85. The raise clause is the model's fault entry (R107, R108; the spec's decisions D7 and D8; log entry 6). -/
def Obligations.PrnEmitsRegister : Prop :=
  ∀ (s : State) (a : Byte), s.cfg.opcodeMap.Wf →
    encodeWith s.cfg.opcodeMap (.prn a) = [s.cfg.opcodeMap.code .prn, a] ∧
    ((s.cfg.boundsPolicy = .fault → a.toNat ≤ 7 ∧ s.pc.toNat ≤ 253) →
      exec (.prn a) s = .next { s with out := s.out ++ [s.reg (lowIndex a)], pc := s.pc + 2 }) ∧
    (s.cfg.boundsPolicy = .fault → ¬ (a.toNat ≤ 7 ∧ s.pc.toNat ≤ 253) →
      exec (.prn a) s = .next (boundsEntry s (s.cfg.opcodeMap.code .prn)))

/-- R91. The raise clause is the model's fault entry (R107, R108; the spec's decisions D7 and D8; log entry 6). -/
def Obligations.AddWritesSumModulo256 : Prop :=
  ∀ (s : State) (a b : Byte), s.cfg.opcodeMap.Wf →
    encodeWith s.cfg.opcodeMap (.add a b) = [s.cfg.opcodeMap.code .add, a, b] ∧
    ((s.cfg.boundsPolicy = .fault → a.toNat ≤ 7 ∧ b.toNat ≤ 7 ∧ s.pc.toNat ≤ 252) →
      exec (.add a b) s = .next { s with
        regs := s.regs.set (lowIndex a).val
          (BitVec.ofNat 8 (((s.reg (lowIndex a)).toNat + (s.reg (lowIndex b)).toNat) % 256)),
        pc := s.pc + 3 }) ∧
    (s.cfg.boundsPolicy = .fault → ¬ (a.toNat ≤ 7 ∧ b.toNat ≤ 7 ∧ s.pc.toNat ≤ 252) →
      exec (.add a b) s = .next (boundsEntry s (s.cfg.opcodeMap.code .add)))

/-- R92. The raise clause is the model's fault entry (R107, R108; the spec's decisions D7 and D8; log entry 6). -/
def Obligations.MulWritesProductModulo256 : Prop :=
  ∀ (s : State) (a b : Byte), s.cfg.opcodeMap.Wf →
    encodeWith s.cfg.opcodeMap (.mul a b) = [s.cfg.opcodeMap.code .mul, a, b] ∧
    ((s.cfg.boundsPolicy = .fault → a.toNat ≤ 7 ∧ b.toNat ≤ 7 ∧ s.pc.toNat ≤ 252) →
      exec (.mul a b) s = .next { s with
        regs := s.regs.set (lowIndex a).val
          (BitVec.ofNat 8 ((s.reg (lowIndex a)).toNat * (s.reg (lowIndex b)).toNat % 256)),
        pc := s.pc + 3 }) ∧
    (s.cfg.boundsPolicy = .fault → ¬ (a.toNat ≤ 7 ∧ b.toNat ≤ 7 ∧ s.pc.toNat ≤ 252) →
      exec (.mul a b) s = .next (boundsEntry s (s.cfg.opcodeMap.code .mul)))

/-- R93; the one-hot write of all of fl is the spec's decision D4 (log entry 8). The raise clause is the model's fault
entry (R107, R108; D7 and D8; log entry 6). -/
def Obligations.CmpWritesAllFlags : Prop :=
  ∀ (s : State) (a b : Byte), s.cfg.opcodeMap.Wf →
    encodeWith s.cfg.opcodeMap (.cmp a b) = [s.cfg.opcodeMap.code .cmp, a, b] ∧
    ((s.cfg.boundsPolicy = .fault → a.toNat ≤ 7 ∧ b.toNat ≤ 7 ∧ s.pc.toNat ≤ 252) →
      exec (.cmp a b) s = .next { s with
        fl := if (s.reg (lowIndex a)).toNat < (s.reg (lowIndex b)).toNat then 0b100
          else if (s.reg (lowIndex a)).toNat > (s.reg (lowIndex b)).toNat then 0b010 else 0b001,
        pc := s.pc + 3 }) ∧
    (s.cfg.boundsPolicy = .fault → ¬ (a.toNat ≤ 7 ∧ b.toNat ≤ 7 ∧ s.pc.toNat ≤ 252) →
      exec (.cmp a b) s = .next (boundsEntry s (s.cfg.opcodeMap.code .cmp)))

/-- R95: PUSH R7 stores the decremented SP, which is the spec's decision D17 (R9; log entry 8). The raise clause is the
model's fault entry (R107, R108; D7 and D8; log entry 6). -/
def Obligations.PushStoresAtDecrementedSp : Prop :=
  ∀ (s : State) (a : Byte), s.cfg.opcodeMap.Wf →
    encodeWith s.cfg.opcodeMap (.push a) = [s.cfg.opcodeMap.code .push, a] ∧
    ((s.cfg.boundsPolicy = .fault → a.toNat ≤ 7 ∧ s.pc.toNat ≤ 253 ∧ s.sp ≠ 0) →
      exec (.push a) s = .next { s with
        regs := s.regs.set 7 (s.sp - 1),
        mem := s.mem.set (s.sp - 1).toNat (if lowIndex a = 7 then s.sp - 1 else s.reg (lowIndex a)),
        pc := s.pc + 2 }) ∧
    (s.cfg.boundsPolicy = .fault → ¬ (a.toNat ≤ 7 ∧ s.pc.toNat ≤ 253 ∧ s.sp ≠ 0) →
      exec (.push a) s = .next (boundsEntry s (s.cfg.opcodeMap.code .push)))

/-- R96: POP R7 leaves the loaded byte plus 1 in SP, which is the spec's decision D17 (R9; log entry 8). The raise clause
is the model's fault entry (R107, R108; D7 and D8; log entry 6). -/
def Obligations.PopLoadsThenIncrementsSp : Prop :=
  ∀ (s : State) (a : Byte), s.cfg.opcodeMap.Wf →
    encodeWith s.cfg.opcodeMap (.pop a) = [s.cfg.opcodeMap.code .pop, a] ∧
    ((s.cfg.boundsPolicy = .fault →
        a.toNat ≤ 7 ∧ s.pc.toNat ≤ 253 ∧ (if lowIndex a = 7 then s.memRead s.sp else s.sp) ≠ 255) →
      exec (.pop a) s = .next { s with
        regs := if lowIndex a = 7 then s.regs.set 7 (s.memRead s.sp + 1)
          else (s.regs.set (lowIndex a).val (s.memRead s.sp)).set 7 (s.sp + 1),
        pc := s.pc + 2 }) ∧
    (s.cfg.boundsPolicy = .fault →
      ¬ (a.toNat ≤ 7 ∧ s.pc.toNat ≤ 253 ∧ (if lowIndex a = 7 then s.memRead s.sp else s.sp) ≠ 255) →
      exec (.pop a) s = .next (boundsEntry s (s.cfg.opcodeMap.code .pop)))

/-- R98: CALL R7 jumps to the decremented SP, which is the spec's decision D17 (R9; log entry 8). The raise clause is the
model's fault entry (R107, R108; D7 and D8; log entry 6). -/
def Obligations.CallStoresReturnAddressAndJumps : Prop :=
  ∀ (s : State) (a : Byte),
    encodeWith s.cfg.opcodeMap (.call a) = [s.cfg.opcodeMap.code .call, a] ∧
    ((s.cfg.boundsPolicy = .fault → a.toNat ≤ 7 ∧ s.pc.toNat ≤ 253 ∧ s.sp ≠ 0) →
      exec (.call a) s = .next { s with
        regs := s.regs.set 7 (s.sp - 1),
        mem := s.mem.set (s.sp - 1).toNat (s.pc + 2),
        pc := if lowIndex a = 7 then s.sp - 1 else s.reg (lowIndex a) }) ∧
    (s.cfg.boundsPolicy = .fault → ¬ (a.toNat ≤ 7 ∧ s.pc.toNat ≤ 253 ∧ s.sp ≠ 0) →
      exec (.call a) s = .next (boundsEntry s (s.cfg.opcodeMap.code .call)))

/-- R99. The raise clauses are the model's fault entry (R107, R108; D7 and D8; log entry 6); that `exec` still answers at
pc 254 and 255 under `fault` is log entry 14. -/
def Obligations.RetLoadsPcThenIncrementsSp : Prop :=
  ∀ s : State,
    encodeWith s.cfg.opcodeMap .ret = [s.cfg.opcodeMap.code .ret] ∧
    ((s.cfg.boundsPolicy = .fault → s.sp ≠ 255) →
      exec .ret s = .next { s with regs := s.regs.set 7 (s.sp + 1), pc := s.memRead s.sp }) ∧
    (s.cfg.boundsPolicy = .fault → s.sp = 255 → exec .ret s = .next (boundsEntry s (s.cfg.opcodeMap.code .ret))) ∧
    FetchRaisesNearTop s

/-- R100: the target is the new pc exactly (the spec's decision D5, log entry 8).
The raise clauses are the model's fault entry (R107, R108; D7 and D8; log entry 6); that `exec` still answers at pc 254
and 255 under `fault` is log entry 14. -/
def Obligations.JmpLoadsPcExactly : Prop :=
  ∀ (s : State) (a : Byte),
    encodeWith s.cfg.opcodeMap (.jmp a) = [s.cfg.opcodeMap.code .jmp, a] ∧
    ((s.cfg.boundsPolicy = .fault → a.toNat ≤ 7) → exec (.jmp a) s = .next { s with pc := s.reg (lowIndex a) }) ∧
    (s.cfg.boundsPolicy = .fault → 7 < a.toNat →
      exec (.jmp a) s = .next (boundsEntry s (s.cfg.opcodeMap.code .jmp))) ∧
    FetchRaisesNearTop s

/-- R101: taken where bit E is clear, else the generic advance (the spec's decision D5, log entry 8); regA is checked in
both cases (D3). The raise clauses are the model's fault entry (R107, R108; D7 and D8; log entry 6); that `exec` still
answers at pc 254 and 255 under `fault` is log entry 14. -/
def Obligations.JneJumpsWhereEqualIsClear : Prop :=
  ∀ (s : State) (a : Byte), s.cfg.opcodeMap.Wf →
    encodeWith s.cfg.opcodeMap (.jne a) = [s.cfg.opcodeMap.code .jne, a] ∧
    ((s.cfg.boundsPolicy = .fault → a.toNat ≤ 7) → s.fl.getLsbD 0 = false →
      exec (.jne a) s = .next { s with pc := s.reg (lowIndex a) }) ∧
    ((s.cfg.boundsPolicy = .fault → a.toNat ≤ 7 ∧ s.pc.toNat ≤ 253) → s.fl.getLsbD 0 = true →
      exec (.jne a) s = .next { s with pc := s.pc + 2 }) ∧
    (s.cfg.boundsPolicy = .fault → 7 < a.toNat →
      exec (.jne a) s = .next (boundsEntry s (s.cfg.opcodeMap.code .jne))) ∧
    FetchRaisesNearTop s

/-- R103: HLT stops with pc at its own byte (the spec's decision D6, log entry 8).
The raise clause of the fetch is the model's fault entry (R107, R108; D7 and D8; log entry 6); that `exec` still answers
at pc 254 and 255 under `fault` is log entry 14. -/
def Obligations.HltHaltsInPlace : Prop :=
  ∀ s : State, encodeWith s.cfg.opcodeMap .hlt = [s.cfg.opcodeMap.code .hlt] ∧ exec .hlt s = .next { s with fsm := .halted } ∧ FetchRaisesNearTop s

/-! The step. -/

/-- Where the three fetched bytes decode to an instruction, the step is that instruction's exec at the same state: the
step adds nothing before it and nothing after it. -/
def Obligations.StepRunsTheDecodedInstruction : Prop :=
  ∀ (s : State) (i : Instr), s.fsm = .run → (s.cfg.boundsPolicy = .fault → s.pc.toNat ≤ 253) →
    decodeFetched s.cfg.opcodeMap (s.memRead s.pc) (s.memRead (s.pc + 1)) (s.memRead (s.pc + 2)) = some i →
    step s = exec i s

/-- An instruction whose encoding stands at pc is the one that runs, whatever stands after it. -/
def Obligations.PlacedInstructionIsExecuted : Prop :=
  ∀ (s : State) (i : Instr), s.cfg.opcodeMap.Wf → s.fsm = .run → (s.cfg.boundsPolicy = .fault → s.pc.toNat ≤ 253) →
    PlacedAtPc i s → step s = exec i s

/-- The host's way to place an opcode-table word (log entry 7): the very next step runs what the decoder reads in it. -/
def Obligations.FetchWordIsTheNextInstruction : Prop :=
  ∀ (s : State) (nbits w : Nat) (i : Instr), s.cfg.opcodeMap = defaultOpcodeMap → s.fsm = .run →
    (s.cfg.boundsPolicy = .fault → s.pc.toNat ≤ 253) → decodeTableWord nbits w = some i →
    step (s.withFetchWord nbits w) = exec i (s.withFetchWord nbits w)

/-- R105. That the step is a next state in FAULTED with nothing else changed is the model's fault entry (R107, R108; the
spec's decisions D7 and D8; log entry 6). -/
def Obligations.IllegalOpcodeRaisesDecodeError : Prop :=
  ∀ s : State, s.fsm = .run → (s.cfg.boundsPolicy = .fault → s.pc.toNat ≤ 253) →
    (∀ op, s.cfg.opcodeMap.code op ≠ s.memRead s.pc) → step s = .next (decodeEntry s (s.memRead s.pc))

/-- R110 (the spec's decision D19, log entry 8): the fetch addresses come first, then the opcode, then every other check
(one cause, BoundsViolation). -/
def Obligations.ExceptionsFollowPriority : Prop :=
  ∀ s t : State, step s = .next t →
    (s.cfg.boundsPolicy = .fault → 254 ≤ s.pc.toNat → t = boundsEntry s (s.memRead s.pc)) ∧
    ((s.cfg.boundsPolicy = .fault → s.pc.toNat ≤ 253) → (∀ op, s.cfg.opcodeMap.code op ≠ s.memRead s.pc) →
      t = decodeEntry s (s.memRead s.pc)) ∧
    ((s.cfg.boundsPolicy = .fault → s.pc.toNat ≤ 253) → (∃ op, s.cfg.opcodeMap.code op = s.memRead s.pc) →
      t.fsm = .faulted → t = boundsEntry s (s.memRead s.pc))

/-- R107 and R108 (the spec's decisions D7 and D8, log entries 6 and 8): a raising step writes the fault entry and
nothing else. -/
def Obligations.ExceptionsArePrecise : Prop :=
  ∀ s t : State, step s = .next t → t.fsm = .faulted →
    t = decodeEntry s (s.memRead s.pc) ∨ t = boundsEntry s (s.memRead s.pc)

/-- Under `mask`, no BoundsViolation (R106): a fault is an illegal opcode. -/
def Obligations.MaskNeverRaisesBoundsViolation : Prop :=
  ∀ s t : State, s.cfg.boundsPolicy = .mask → step s = .next t → t.fsm = .faulted →
    t.faultCause = .decodeError ∧ ∀ op, s.cfg.opcodeMap.code op ≠ s.memRead s.pc

/-- A step exists in RUN (R80) and none in HALTED (R77) and FAULTED (R78). That "no step" of R70 means no next state is the
model's reading (log entry 5, DESIGN CHOICE; the spec's decision D20). -/
def Obligations.StepExistsExactlyInRun : Prop :=
  ∀ s : State, (∃ t, step s = .next t) ↔ s.fsm = .run

/-- R70: RUN is left for HALTED by HLT and nothing else. -/
def Obligations.OnlyHltHalts : Prop :=
  ∀ s t : State, step s = .next t →
    (t.fsm = .halted ↔
      (s.cfg.boundsPolicy = .fault → s.pc.toNat ≤ 253) ∧ decodeOp s.cfg.opcodeMap (s.memRead s.pc) = some .hlt)

/-! Frames over all instructions. -/

/-- R21: CMP is the only instruction that writes fl, and what it leaves there does not depend on the earlier fl. The write
of all eight bits is the spec's decision D4 (log entry 8); that a raising CMP leaves fl is D7 (R107; log entry 6). -/
def Obligations.OnlyCmpWritesFlags : Prop :=
  (∀ (i : Instr) (s t : State), exec i s = .next t → (∀ a b, i ≠ .cmp a b) → t.fl = s.fl) ∧
  ∀ (a b f : Byte) (s t : State), s.fsm = .run → exec (.cmp a b) s = .next t →
    if t.fsm = .faulted then t.fl = s.fl else exec (.cmp a b) { s with fl := f } = .next t

/-- Only PUSH and CALL write memory (R37, R49): for every other instruction each byte reads as before. -/
def Obligations.OnlyPushAndCallWriteMemory : Prop :=
  ∀ (i : Instr) (s t : State), exec i s = .next t → (∀ a, i ≠ .push a ∧ i ≠ .call a) →
    ∀ c, t.memRead c = s.memRead c

/-- PUSH and CALL store one byte, at addr(SP - 1): every other byte reads as before. -/
def Obligations.StackStoresTouchOneByte : Prop :=
  ∀ (a : Byte) (s t : State), (exec (.push a) s = .next t ∨ exec (.call a) s = .next t) →
    (∀ p, s.addr (s.sp.toNat - 1) = some p → ∀ c, c ≠ p → t.memRead c = s.memRead c) ∧
    (s.addr (s.sp.toNat - 1) = none → ∀ c, t.memRead c = s.memRead c)

/-- A register outside column "writes" of R15 keeps its value. -/
def Obligations.OnlyTabulatedRegistersChange : Prop :=
  ∀ (i : Instr) (s t : State), exec i s = .next t → ∀ r, r ∉ writtenRegs i → t.reg r = s.reg r

/-- A register R15 does not list for an instruction neither influences it nor changes. -/
def Obligations.UntouchedRegistersDoNotMatter : Prop :=
  ∀ (i : Instr) (s t : State) (r : Fin 8) (v : Byte), r ∉ touchedRegs i → exec i s = .next t →
    exec i (s.setReg r v) = .next (t.setReg r v)

/-- R22: no instruction reads fl but JNE, and JNE reads bit E alone: with another fl of the same bit E, the next state
differs in fl at most. -/
def Obligations.OnlyEqualFlagIsRead : Prop :=
  (∀ (i : Instr) (s t : State) (f : Byte), f.getLsbD 0 = s.fl.getLsbD 0 → exec i s = .next t →
    ∃ g, exec i { s with fl := f } = .next { t with fl := g }) ∧
  ∀ (i : Instr) (s t : State) (f : Byte), (∀ a, i ≠ .jne a) → exec i s = .next t →
    ∃ g, exec i { s with fl := f } = .next { t with fl := g }

/-- R28: out only grows, by at most one value a step, and only where the step fetched PRN. -/
def Obligations.OutputGrowsOnlyByPrn : Prop :=
  ∀ s t : State, step s = .next t → t.out = s.out ∨
    ∃ v, t.out = s.out ++ [v] ∧ decodeOp s.cfg.opcodeMap (s.memRead s.pc) = some .prn

/-- The fault record is written only on entering FAULTED (R25), and the configuration by nothing (R80). -/
def Obligations.FaultRecordWrittenOnlyOnFault : Prop :=
  ∀ s t : State, step s = .next t → t.cfg = s.cfg ∧
    (t.fsm ≠ .faulted → t.faultCause = s.faultCause ∧ t.faultPc = s.faultPc ∧ t.faultIr = s.faultIr)

/-- The invariant of R75 (D5, log entry 8): after an instruction that neither jumps nor halts, pc advances by exactly
1 + operand count. -/
def Obligations.NonJumpsAdvanceByLength : Prop :=
  ∀ (i : Instr) (s t : State), s.cfg.opcodeMap.Wf → s.fsm = .run → exec i s = .next t → t.fsm = .run →
    (∀ a, i ≠ .call a ∧ i ≠ .jmp a) → i ≠ .ret → (∀ a, i = .jne a → s.fl.getLsbD 0 = true) →
    t.pc = s.pc + BitVec.ofNat 8 (encodeWith s.cfg.opcodeMap i).length

/-! Sequences of instructions. -/

/-- R97's property: PUSH r then POP r2, neither R7, moves the byte and restores SP. -/
def Obligations.PushThenPopTransfers : Prop :=
  ∀ (s : State) (a b : Byte), s.cfg.opcodeMap.Wf → lowIndex a ≠ 7 → lowIndex b ≠ 7 →
    (s.cfg.boundsPolicy = .fault → a.toNat ≤ 7 ∧ b.toNat ≤ 7 ∧ s.pc.toNat ≤ 251 ∧ s.sp ≠ 0) →
    ∃ t u, exec (.push a) s = .next t ∧ exec (.pop b) t = .next u ∧
      u.reg (lowIndex b) = s.reg (lowIndex a) ∧ u.sp = s.sp ∧ u.pc = s.pc + 4

/-- R99's property: RET, in any state that has SP and the byte at SP as CALL left them, goes to the byte after the CALL
and its operand and restores SP. It is a statement of `exec`, which does not repeat the fetch check: that RET still
answers where u has pc 254 or 255 under `fault`, where a step raises in its fetch, is log entry 14. -/
def Obligations.CallThenRetReturns : Prop :=
  ∀ (s : State) (a : Byte), (s.cfg.boundsPolicy = .fault → a.toNat ≤ 7 ∧ s.pc.toNat ≤ 253 ∧ s.sp ≠ 0) →
    ∃ t, exec (.call a) s = .next t ∧
      ∀ u : State, u.cfg = t.cfg → u.sp = t.sp → u.memRead u.sp = t.memRead t.sp →
        ∃ v, exec .ret u = .next v ∧ v.pc = s.pc + 2 ∧ v.sp = s.sp

/-- The property quoted in R101: CMP then JNE falls through on equal and jumps on unequal. -/
def Obligations.CmpThenJneBranchesOnInequality : Prop :=
  ∀ (s : State) (a b c : Byte), s.cfg.opcodeMap.Wf →
    (s.cfg.boundsPolicy = .fault → a.toNat ≤ 7 ∧ b.toNat ≤ 7 ∧ c.toNat ≤ 7 ∧ s.pc.toNat ≤ 250) →
    ∃ t u, exec (.cmp a b) s = .next t ∧ exec (.jne c) t = .next u ∧
      u.pc = if s.reg (lowIndex a) = s.reg (lowIndex b) then s.pc + 5 else s.reg (lowIndex c)

/-- Fetch coherence (R49): a byte PUSH stored where pc now points is the opcode byte of the next fetch. -/
def Obligations.PushedByteIsFetched : Prop :=
  ∀ (s t : State) (a : Byte) (f : Fetched), s.fsm = .run → lowIndex a ≠ 7 → exec (.push a) s = .next t →
    t.fsm = .run → t.pc = t.sp → fetch t = some f → f.ir = s.reg (lowIndex a)

/-- R100's endless loop: JMP to its own address changes no state, in any number of steps. -/
def Obligations.JmpToItselfLoopsForever : Prop :=
  ∀ (s : State) (a : Byte), s.cfg.opcodeMap.Wf → s.fsm = .run →
    (s.cfg.boundsPolicy = .fault → a.toNat ≤ 7 ∧ s.pc.toNat ≤ 253) →
    s.memRead s.pc = s.cfg.opcodeMap.code .jmp → s.memRead (s.pc + 1) = a → s.reg (lowIndex a) = s.pc →
    ∀ k, core.run k s = .next s

/-! Reset, launch, the end of a run. -/

/-- R120 with the values of R31 (fsm and the fault record: the spec's decisions D18 and D8), from any state.
That memory is not written is R119 (D11), and that the configuration is kept is the model's choice (log entry 10, DESIGN
CHOICE). The first fetch is at address 0. -/
def Obligations.ResetGivesStartState : Prop :=
  ∀ s : State,
    applyReset s =
      { regs := #v[0, 0, 0, 0, 0, 0, 0, 0xF4], pc := 0, fl := 0, mem := s.mem, fsm := .run,
        faultCause := .none, faultPc := 0, faultIr := 0, out := [], cfg := s.cfg } ∧
    (fetch (applyReset s)).map (·.ir) = some (s.memRead 0)

/-- R121: image byte k at address k, MEM_INIT elsewhere, the rest as after reset; no launch above 256 bytes (the spec's
decision D15, log entry 7). -/
def Obligations.LaunchPlacesImage : Prop :=
  ∀ (c : Config) (memInit : Memory) (image : List Byte),
    (256 < image.length → launch c memInit image = none) ∧
    (image.length ≤ 256 → ∃ s, launch c memInit image = some s ∧
      (∀ (a : Byte), s.memRead a = (image[a.toNat]?).getD (memInit.get a.toNat)) ∧
      s = { State.reset with mem := s.mem, cfg := c })

/-- The invariant holds at reset. -/
def Obligations.ResetMeetsInvariant : Prop := Inv State.reset

/-- Headline, the invariants of R32 with the model's memory form (log entry 4) and the legality of the map: every step
from a state that meets them leads to one that does, and out only grows. -/
def Obligations.StepKeepsInvariant : Prop :=
  ∀ s t : State, Inv s → step s = .next t → Inv t ∧ s.out <+: t.out

/-- The invariant holds all along every run from every valid launch. What memory is between launch and the first write,
an image over a canonical MEM_INIT, is the model's form (log entry 4). -/
def Obligations.LaunchedRunsKeepInvariant : Prop :=
  ∀ (c : Config) (memInit : Memory) (image : List Byte) (s : State), c.Wf → memInit.wf →
    launch c memInit image = some s → ∀ k t, core.run k s = .next t → Inv t

/-- R79: a run has at most one end. -/
def Obligations.RunEndIsUnique : Prop :=
  ∀ s t u : State, EndsIn s t → EndsIn s u → t = u

/-- R112: 0 for HALTED; for the two fatal errors nonzero statuses, not 2, that differ; none while the run goes on. -/
def Obligations.ExitStatusTellsTheEndApart : Prop :=
  ∀ (e : ExitStatuses) (s : State), e.Wf → Inv s →
    (s.fsm = .run → exitStatus e s = none) ∧ (s.fsm = .halted → exitStatus e s = some 0) ∧
    (s.fsm = .faulted → s.faultCause = .decodeError → exitStatus e s = some e.exitDecode) ∧
    (s.fsm = .faulted → s.faultCause = .boundsViolation → exitStatus e s = some e.exitBounds) ∧
    (s.fsm = .faulted → ∃ n, exitStatus e s = some n ∧ n ≠ 0 ∧ n ≠ 2) ∧ e.exitDecode ≠ e.exitBounds

/-! The blocks. -/

/-- The six blocks, driven by the control signals of the spec's interfaces (D12, log entry 17), do what the instruction
rules say, R7 as operand and raised exceptions included. -/
def Obligations.BlocksRefineInstructions : Prop :=
  ∀ (i : Instr) (s : State), s.cfg.opcodeMap.Wf → blockExec i s = exec i s

/-- The status ports (R82): exactly one of running, halted, faulted; fault_cause is 0 exactly while not faulted. -/
def Obligations.StatusPortsTellTheState : Prop :=
  ∀ s : State, Inv s →
    ((statusPorts s).running.toNat + (statusPorts s).halted.toNat + (statusPorts s).faulted.toNat = 1) ∧
    ((statusPorts s).faulted = true ↔ (statusPorts s).faultCause ≠ 0) ∧ (statusPorts s).faultCause ≠ 3

/-- The output port (R86): it shows the value of a PRN that completes, in that step alone. -/
def Obligations.OutPortShowsPrnValue : Prop :=
  ∀ (i : Instr) (s t : State), s.fsm = .run → exec i s = .next t →
    (∀ a, i = .prn a → t.fsm = .run → outPort s t = some (s.reg (lowIndex a))) ∧
    ((∀ a, i ≠ .prn a) ∨ t.fsm = .faulted → outPort s t = none)

/-- The fetch_decode_unit's ports (R65): bounds_err means BoundsViolation, and an illegal byte without it DecodeError. -/
def Obligations.FetchPortsPredictExceptions : Prop :=
  ∀ s : State, s.fsm = .run →
    ((fetchPorts s).boundsErr = true → step s = .next (boundsEntry s (fetchPorts s).ir)) ∧
    ((fetchPorts s).boundsErr = false → (fetchPorts s).legal = false → step s = .next (decodeEntry s (fetchPorts s).ir))
end

