-- ==== Sys2Proof/Laws/Decode.lean ====
section
/-! SUPPORT. The decoder's lemmas: the operand count field, and the opcode lookup and its inverse. -/

namespace Sys2Proof

theorem operandCount_eq (ir : Byte) : operandCount ir = ir.toNat / 64 := by
  have := ir.isLt
  simp only [operandCount, BitVec.extractLsb'_toNat, Nat.shiftRight_eq_div_pow]
  omega

theorem operandCount_lt (ir : Byte) : operandCount ir < 4 := by
  have := ir.isLt
  rw [operandCount_eq]; omega

theorem Mnemonic.mem_all (op : Mnemonic) : op ∈ Mnemonic.all := by
  cases op <;> decide

/-- The second property of R60, on the field itself. -/
theorem OpcodeMap.Wf.operandCount {m : OpcodeMap} (h : m.Wf) (op : Mnemonic) :
    operandCount (m.code op) = op.operandCount := by
  rw [operandCount_eq]; exact h.2 op op.mem_all

/-- The first property of R60. -/
theorem OpcodeMap.Wf.code_inj {m : OpcodeMap} (h : m.Wf) {x y : Mnemonic} (he : m.code x = m.code y) : x = y :=
  List.inj_on_of_nodup_map h.1 x.mem_all y.mem_all he

/-- A decoded mnemonic's byte is the byte decoded, for any map. -/
theorem code_of_decodeOp {m : OpcodeMap} {ir : Byte} {op : Mnemonic} (h : decodeOp m ir = some op) : m.code op = ir := by
  simpa using List.find?_some h

theorem decodeOp_code {m : OpcodeMap} (h : m.Wf) (op : Mnemonic) : decodeOp m (m.code op) = some op := by
  cases hd : decodeOp m (m.code op) with
  | none => exact absurd (List.find?_eq_none.1 hd op op.mem_all) (by simp)
  | some x => rw [h.code_inj (code_of_decodeOp hd)]

theorem decodeOp_eq_none {m : OpcodeMap} {ir : Byte} : decodeOp m ir = none ↔ ∀ op, m.code op ≠ ir := by
  constructor
  · intro h op he
    exact absurd (List.find?_eq_none.1 h op op.mem_all) (by simp [he])
  · intro h
    exact List.find?_eq_none.2 fun op _ => by simp [h op]

theorem decodeFetched_eq_some {m : OpcodeMap} {ir opA opB : Byte} {i : Instr} :
    decodeFetched m ir opA opB = some i ↔ ∃ op, decodeOp m ir = some op ∧ operandsOf op opA opB = i := by
  simp [decodeFetched]

@[simp] theorem mnemonic_operandsOf (op : Mnemonic) (opA opB : Byte) : (operandsOf op opA opB).mnemonic = op := by
  cases op <;> rfl

theorem operandBytes_length (i : Instr) : i.operandBytes.length = i.mnemonic.operandCount := by
  cases i <;> rfl

/-- An instruction is what its mnemonic makes of its own operand bytes; missing ones are not looked at. -/
theorem operandsOf_operandBytes (i : Instr) (rest : List Byte) :
    operandsOf i.mnemonic ((i.operandBytes ++ rest).getD 0 0) ((i.operandBytes ++ rest).getD 1 0) = i := by
  cases i <;> rfl

end Sys2Proof
end

