-- ==== Sys2Proof/Laws/Memory.lean ====
section
/-! SUPPORT. The laws of the memory list: what a read sees after a write, and that a write keeps the canonical form. -/

namespace Sys2Proof.Machine

theorem Memory.get_insert (m : Memory) (a : Nat) (v : Byte) (b : Nat) :
    (Memory.insert m a v).get b = if a = b then v else m.get b := by
  induction m with
  | nil => simp [Memory.insert, Memory.get]
  | cons c rest ih =>
    obtain ⟨k, w⟩ := c
    by_cases h1 : a < k
    · simp [Memory.insert, Memory.get, h1]
    · by_cases h2 : k = a
      · subst h2
        by_cases h3 : k = b <;> simp [Memory.insert, Memory.get, h3]
      · by_cases h3 : k = b
        · subst h3
          simp [Memory.insert, Memory.get, h1, h2, Ne.symm h2]
        · simp [Memory.insert, Memory.get, h1, h2, h3, ih]

theorem Memory.get_filter (m : Memory) (a b : Nat) :
    Memory.get (m.filter fun c => c.1 != a) b = if a = b then unlistedByte else m.get b := by
  induction m with
  | nil => simp [Memory.get]
  | cons c rest ih =>
    obtain ⟨k, w⟩ := c
    by_cases h1 : k = a
    · subst h1
      by_cases h2 : k = b
      · subst h2
        simpa [Memory.get] using ih
      · simp [Memory.get, ih, h2]
    · by_cases h2 : k = b
      · subst h2
        simp [Memory.get, h1, Ne.symm h1]
      · simp [Memory.get, h1, h2, ih]

/-- A write is seen at its own address and nowhere else, in any list, canonical or not. -/
theorem Memory.get_set (m : Memory) (a : Nat) (v : Byte) (b : Nat) :
    (m.set a v).get b = if a = b then v else m.get b := by
  unfold Memory.set
  split
  · next h => rw [Memory.get_filter, h]
  · exact Memory.get_insert m a v b

theorem Memory.mem_insert {m : Memory} {a : Nat} {v : Byte} {c : Host.Cell} (h : c ∈ Memory.insert m a v) :
    c = (a, v) ∨ c ∈ m := by
  induction m with
  | nil => simpa [Memory.insert] using h
  | cons d rest ih =>
    obtain ⟨k, w⟩ := d
    unfold Memory.insert at h
    split at h
    · simpa using h
    · split at h
      · rcases List.mem_cons.1 h with h | h <;> simp [h]
      · rcases List.mem_cons.1 h with h | h
        · simp [h]
        · rcases ih h with h | h <;> simp [h]

theorem Memory.rising_insert {m : Memory} (h : m.Pairwise fun c d => c.1 < d.1) (a : Nat) (v : Byte) :
    (Memory.insert m a v).Pairwise fun c d => c.1 < d.1 := by
  induction m with
  | nil => simp [Memory.insert]
  | cons d rest ih =>
    obtain ⟨k, w⟩ := d
    obtain ⟨hk, hrest⟩ := List.pairwise_cons.1 h
    unfold Memory.insert
    split
    · next hlt =>
      refine List.pairwise_cons.2 ⟨fun c hc => ?_, h⟩
      rcases List.mem_cons.1 hc with rfl | hc
      · exact hlt
      · exact Nat.lt_trans hlt (hk c hc)
    · split
      · next heq => subst heq; exact List.pairwise_cons.2 ⟨hk, hrest⟩
      · next hlt hne =>
        refine List.pairwise_cons.2 ⟨fun c hc => ?_, ih hrest⟩
        rcases Memory.mem_insert hc with rfl | hc
        · simp only; omega
        · exact hk c hc

/-- Every write keeps the canonical form. -/
theorem Memory.wf_set {m : Memory} (h : m.wf) {a : Nat} (ha : a < 256) (v : Byte) : (m.set a v).wf := by
  unfold Memory.set
  split
  · exact ⟨h.1.filter _, fun c hc => h.2 c (List.mem_filter.1 hc).1⟩
  · next hv =>
    refine ⟨Memory.rising_insert h.1 a v, fun c hc => ?_⟩
    rcases Memory.mem_insert hc with rfl | hc
    · exact ⟨ha, hv⟩
    · exact h.2 c hc

theorem Memory.wf_nil : Memory.wf [] := by simp [Memory.wf]

end Sys2Proof.Machine
end

