-- ==== Sys2Proof/Laws/State.lean ====
section
/-! SUPPORT. One lemma per field of State and update of it, so that no proof unfolds a record update; and what each
update does to the derived reads (x[i], MemRead, addr, reg, opcode). -/

namespace Sys2Proof.Machine

variable (s : State)


@[simp] theorem State.setReg_regs (i : Fin 8) (v : Byte) : (s.setReg i v).regs = s.regs.set i.val v := rfl
@[simp] theorem State.setReg_pc (i : Fin 8) (v : Byte) : (s.setReg i v).pc = s.pc := rfl
@[simp] theorem State.setReg_fl (i : Fin 8) (v : Byte) : (s.setReg i v).fl = s.fl := rfl
@[simp] theorem State.setReg_mem (i : Fin 8) (v : Byte) : (s.setReg i v).mem = s.mem := rfl
@[simp] theorem State.setReg_fsm (i : Fin 8) (v : Byte) : (s.setReg i v).fsm = s.fsm := rfl
@[simp] theorem State.setReg_faultCause (i : Fin 8) (v : Byte) : (s.setReg i v).faultCause = s.faultCause := rfl
@[simp] theorem State.setReg_faultPc (i : Fin 8) (v : Byte) : (s.setReg i v).faultPc = s.faultPc := rfl
@[simp] theorem State.setReg_faultIr (i : Fin 8) (v : Byte) : (s.setReg i v).faultIr = s.faultIr := rfl
@[simp] theorem State.setReg_out (i : Fin 8) (v : Byte) : (s.setReg i v).out = s.out := rfl
@[simp] theorem State.setReg_cfg (i : Fin 8) (v : Byte) : (s.setReg i v).cfg = s.cfg := rfl
@[simp] theorem State.memRead_setReg (i : Fin 8) (v : Byte) (x : Byte) : (s.setReg i v).memRead x = s.memRead x := rfl
@[simp] theorem State.addr_setReg (i : Fin 8) (v : Byte) (x : Int) : (s.setReg i v).addr x = s.addr x := rfl
@[simp] theorem State.regIndex_setReg (i : Fin 8) (v : Byte) (x : Byte) : (s.setReg i v).regIndex x = s.regIndex x := rfl
@[simp] theorem State.opcode_setReg (i : Fin 8) (v : Byte) (op : Mnemonic) : (s.setReg i v).opcode op = s.opcode op := rfl

@[simp] theorem State.memWrite_regs (a v : Byte) : (s.memWrite a v).regs = s.regs := rfl
@[simp] theorem State.memWrite_pc (a v : Byte) : (s.memWrite a v).pc = s.pc := rfl
@[simp] theorem State.memWrite_fl (a v : Byte) : (s.memWrite a v).fl = s.fl := rfl
@[simp] theorem State.memWrite_mem (a v : Byte) : (s.memWrite a v).mem = s.mem.set a.toNat v := rfl
@[simp] theorem State.memWrite_fsm (a v : Byte) : (s.memWrite a v).fsm = s.fsm := rfl
@[simp] theorem State.memWrite_faultCause (a v : Byte) : (s.memWrite a v).faultCause = s.faultCause := rfl
@[simp] theorem State.memWrite_faultPc (a v : Byte) : (s.memWrite a v).faultPc = s.faultPc := rfl
@[simp] theorem State.memWrite_faultIr (a v : Byte) : (s.memWrite a v).faultIr = s.faultIr := rfl
@[simp] theorem State.memWrite_out (a v : Byte) : (s.memWrite a v).out = s.out := rfl
@[simp] theorem State.memWrite_cfg (a v : Byte) : (s.memWrite a v).cfg = s.cfg := rfl
@[simp] theorem State.reg_memWrite (a v : Byte) (j : Fin 8) : (s.memWrite a v).reg j = s.reg j := rfl
@[simp] theorem State.addr_memWrite (a v : Byte) (x : Int) : (s.memWrite a v).addr x = s.addr x := rfl
@[simp] theorem State.regIndex_memWrite (a v : Byte) (x : Byte) : (s.memWrite a v).regIndex x = s.regIndex x := rfl
@[simp] theorem State.opcode_memWrite (a v : Byte) (op : Mnemonic) : (s.memWrite a v).opcode op = s.opcode op := rfl

@[simp] theorem State.setPc_regs (v : Byte) : (s.setPc v).regs = s.regs := rfl
@[simp] theorem State.setPc_pc (v : Byte) : (s.setPc v).pc = v := rfl
@[simp] theorem State.setPc_fl (v : Byte) : (s.setPc v).fl = s.fl := rfl
@[simp] theorem State.setPc_mem (v : Byte) : (s.setPc v).mem = s.mem := rfl
@[simp] theorem State.setPc_fsm (v : Byte) : (s.setPc v).fsm = s.fsm := rfl
@[simp] theorem State.setPc_faultCause (v : Byte) : (s.setPc v).faultCause = s.faultCause := rfl
@[simp] theorem State.setPc_faultPc (v : Byte) : (s.setPc v).faultPc = s.faultPc := rfl
@[simp] theorem State.setPc_faultIr (v : Byte) : (s.setPc v).faultIr = s.faultIr := rfl
@[simp] theorem State.setPc_out (v : Byte) : (s.setPc v).out = s.out := rfl
@[simp] theorem State.setPc_cfg (v : Byte) : (s.setPc v).cfg = s.cfg := rfl
@[simp] theorem State.reg_setPc (v : Byte) (j : Fin 8) : (s.setPc v).reg j = s.reg j := rfl
@[simp] theorem State.memRead_setPc (v : Byte) (x : Byte) : (s.setPc v).memRead x = s.memRead x := rfl
@[simp] theorem State.addr_setPc (v : Byte) (x : Int) : (s.setPc v).addr x = s.addr x := rfl
@[simp] theorem State.regIndex_setPc (v : Byte) (x : Byte) : (s.setPc v).regIndex x = s.regIndex x := rfl
@[simp] theorem State.opcode_setPc (v : Byte) (op : Mnemonic) : (s.setPc v).opcode op = s.opcode op := rfl

@[simp] theorem State.setFl_regs (v : Byte) : (s.setFl v).regs = s.regs := rfl
@[simp] theorem State.setFl_pc (v : Byte) : (s.setFl v).pc = s.pc := rfl
@[simp] theorem State.setFl_fl (v : Byte) : (s.setFl v).fl = v := rfl
@[simp] theorem State.setFl_mem (v : Byte) : (s.setFl v).mem = s.mem := rfl
@[simp] theorem State.setFl_fsm (v : Byte) : (s.setFl v).fsm = s.fsm := rfl
@[simp] theorem State.setFl_faultCause (v : Byte) : (s.setFl v).faultCause = s.faultCause := rfl
@[simp] theorem State.setFl_faultPc (v : Byte) : (s.setFl v).faultPc = s.faultPc := rfl
@[simp] theorem State.setFl_faultIr (v : Byte) : (s.setFl v).faultIr = s.faultIr := rfl
@[simp] theorem State.setFl_out (v : Byte) : (s.setFl v).out = s.out := rfl
@[simp] theorem State.setFl_cfg (v : Byte) : (s.setFl v).cfg = s.cfg := rfl
@[simp] theorem State.reg_setFl (v : Byte) (j : Fin 8) : (s.setFl v).reg j = s.reg j := rfl
@[simp] theorem State.memRead_setFl (v : Byte) (x : Byte) : (s.setFl v).memRead x = s.memRead x := rfl
@[simp] theorem State.addr_setFl (v : Byte) (x : Int) : (s.setFl v).addr x = s.addr x := rfl
@[simp] theorem State.regIndex_setFl (v : Byte) (x : Byte) : (s.setFl v).regIndex x = s.regIndex x := rfl
@[simp] theorem State.opcode_setFl (v : Byte) (op : Mnemonic) : (s.setFl v).opcode op = s.opcode op := rfl

@[simp] theorem State.emit_regs (v : Byte) : (s.emit v).regs = s.regs := rfl
@[simp] theorem State.emit_pc (v : Byte) : (s.emit v).pc = s.pc := rfl
@[simp] theorem State.emit_fl (v : Byte) : (s.emit v).fl = s.fl := rfl
@[simp] theorem State.emit_mem (v : Byte) : (s.emit v).mem = s.mem := rfl
@[simp] theorem State.emit_fsm (v : Byte) : (s.emit v).fsm = s.fsm := rfl
@[simp] theorem State.emit_faultCause (v : Byte) : (s.emit v).faultCause = s.faultCause := rfl
@[simp] theorem State.emit_faultPc (v : Byte) : (s.emit v).faultPc = s.faultPc := rfl
@[simp] theorem State.emit_faultIr (v : Byte) : (s.emit v).faultIr = s.faultIr := rfl
@[simp] theorem State.emit_out (v : Byte) : (s.emit v).out = s.out ++ [v] := rfl
@[simp] theorem State.emit_cfg (v : Byte) : (s.emit v).cfg = s.cfg := rfl
@[simp] theorem State.reg_emit (v : Byte) (j : Fin 8) : (s.emit v).reg j = s.reg j := rfl
@[simp] theorem State.memRead_emit (v : Byte) (x : Byte) : (s.emit v).memRead x = s.memRead x := rfl
@[simp] theorem State.addr_emit (v : Byte) (x : Int) : (s.emit v).addr x = s.addr x := rfl
@[simp] theorem State.regIndex_emit (v : Byte) (x : Byte) : (s.emit v).regIndex x = s.regIndex x := rfl
@[simp] theorem State.opcode_emit (v : Byte) (op : Mnemonic) : (s.emit v).opcode op = s.opcode op := rfl

@[simp] theorem State.halt_regs : s.halt.regs = s.regs := rfl
@[simp] theorem State.halt_pc : s.halt.pc = s.pc := rfl
@[simp] theorem State.halt_fl : s.halt.fl = s.fl := rfl
@[simp] theorem State.halt_mem : s.halt.mem = s.mem := rfl
@[simp] theorem State.halt_fsm : s.halt.fsm = .halted := rfl
@[simp] theorem State.halt_faultCause : s.halt.faultCause = s.faultCause := rfl
@[simp] theorem State.halt_faultPc : s.halt.faultPc = s.faultPc := rfl
@[simp] theorem State.halt_faultIr : s.halt.faultIr = s.faultIr := rfl
@[simp] theorem State.halt_out : s.halt.out = s.out := rfl
@[simp] theorem State.halt_cfg : s.halt.cfg = s.cfg := rfl
@[simp] theorem State.reg_halt (j : Fin 8) : s.halt.reg j = s.reg j := rfl
@[simp] theorem State.memRead_halt (x : Byte) : s.halt.memRead x = s.memRead x := rfl
@[simp] theorem State.addr_halt (x : Int) : s.halt.addr x = s.addr x := rfl
@[simp] theorem State.regIndex_halt (x : Byte) : s.halt.regIndex x = s.regIndex x := rfl
@[simp] theorem State.opcode_halt (op : Mnemonic) : s.halt.opcode op = s.opcode op := rfl

@[simp] theorem State.raise_regs (c : FaultCause) (ir : Byte) : (s.raise c ir).regs = s.regs := rfl
@[simp] theorem State.raise_pc (c : FaultCause) (ir : Byte) : (s.raise c ir).pc = s.pc := rfl
@[simp] theorem State.raise_fl (c : FaultCause) (ir : Byte) : (s.raise c ir).fl = s.fl := rfl
@[simp] theorem State.raise_mem (c : FaultCause) (ir : Byte) : (s.raise c ir).mem = s.mem := rfl
@[simp] theorem State.raise_fsm (c : FaultCause) (ir : Byte) : (s.raise c ir).fsm = .faulted := rfl
@[simp] theorem State.raise_faultCause (c : FaultCause) (ir : Byte) : (s.raise c ir).faultCause = c := rfl
@[simp] theorem State.raise_faultPc (c : FaultCause) (ir : Byte) : (s.raise c ir).faultPc = s.pc := rfl
@[simp] theorem State.raise_faultIr (c : FaultCause) (ir : Byte) : (s.raise c ir).faultIr = ir := rfl
@[simp] theorem State.raise_out (c : FaultCause) (ir : Byte) : (s.raise c ir).out = s.out := rfl
@[simp] theorem State.raise_cfg (c : FaultCause) (ir : Byte) : (s.raise c ir).cfg = s.cfg := rfl
@[simp] theorem State.reg_raise (c : FaultCause) (ir : Byte) (j : Fin 8) : (s.raise c ir).reg j = s.reg j := rfl
@[simp] theorem State.memRead_raise (c : FaultCause) (ir : Byte) (x : Byte) : (s.raise c ir).memRead x = s.memRead x := rfl
@[simp] theorem State.addr_raise (c : FaultCause) (ir : Byte) (x : Int) : (s.raise c ir).addr x = s.addr x := rfl
@[simp] theorem State.regIndex_raise (c : FaultCause) (ir : Byte) (x : Byte) : (s.raise c ir).regIndex x = s.regIndex x := rfl
@[simp] theorem State.opcode_raise (c : FaultCause) (ir : Byte) (op : Mnemonic) : (s.raise c ir).opcode op = s.opcode op := rfl

@[simp] theorem State.setSp_eq (v : Byte) : s.setSp v = s.setReg 7 v := rfl
@[simp] theorem State.sp_eq : s.sp = s.reg 7 := rfl

/-- A register write is seen by that register and by no other. -/
@[simp] theorem State.reg_setReg (i : Fin 8) (v : Byte) (j : Fin 8) :
    (s.setReg i v).reg j = if i = j then v else s.reg j := by
  simp [State.reg, State.setReg, Vector.getElem_set, Fin.ext_iff]

end Sys2Proof.Machine
end

