-- ==== Sys2Proof/Laws/Ops.lean ====
section
/-! SUPPORT. What each shared operation can do, said once: the conversions under BOUNDS_POLICY, the advance, the two
stack-pointer moves, `finish`, and reads after a memory write. -/

namespace Sys2Proof.Machine

variable {s t : State}

theorem State.addr_eq_some {v : Int} {b : Byte} : s.addr v = some b ↔ AddrOk s v ∧ b = BitVec.ofInt 8 v := by
  unfold State.addr Machine.addr AddrOk
  cases s.cfg.boundsPolicy <;> simp [eq_comm]

theorem State.addr_eq_none {v : Int} : s.addr v = none ↔ ¬ AddrOk s v := by
  unfold State.addr Machine.addr AddrOk
  cases s.cfg.boundsPolicy <;> simp

theorem State.addr_of_ok {v : Int} (h : AddrOk s v) : s.addr v = some (BitVec.ofInt 8 v) :=
  State.addr_eq_some.2 ⟨h, rfl⟩

theorem State.regIndex_eq_some {b : Byte} {i : Fin 8} : s.regIndex b = some i ↔ RegOk s b ∧ i = lowIndex b := by
  unfold State.regIndex Machine.reg RegOk
  cases s.cfg.boundsPolicy <;> simp [eq_comm]

theorem State.regIndex_eq_none {b : Byte} : s.regIndex b = none ↔ ¬ RegOk s b := by
  unfold State.regIndex Machine.reg RegOk
  cases s.cfg.boundsPolicy <;> simp

theorem State.regIndex_of_ok {b : Byte} (h : RegOk s b) : s.regIndex b = some (lowIndex b) :=
  State.regIndex_eq_some.2 ⟨h, rfl⟩

/-- A byte that names a register names that one under both policies. -/
theorem lowIndex_of_le {b : Byte} (h : b.toNat ≤ 7) : (lowIndex b).val = b.toNat := by
  simp only [lowIndex]; omega

theorem State.advance_eq_some {op : Mnemonic} :
    s.advance op = some t ↔ ∃ p, s.addr (s.pc.toNat + 1 + operandCount (s.opcode op)) = some p ∧ t = s.setPc p := by
  simp [State.advance, eq_comm]

theorem State.decSp_eq_some : s.decSp = some t ↔ ∃ p, s.addr (s.sp.toNat - 1) = some p ∧ t = s.setReg 7 p := by
  simp [State.decSp, eq_comm]

theorem State.incSp_eq_some : s.incSp = some t ↔ ∃ p, s.addr (s.sp.toNat + 1) = some p ∧ t = s.setReg 7 p := by
  simp [State.incSp, eq_comm]

@[simp] theorem finish_some (op : Mnemonic) : finish s op (some t) = .next t := rfl
@[simp] theorem finish_none (op : Mnemonic) :
    finish s op none = .next (s.raise .boundsViolation (s.opcode op)) := rfl

/-- Everything `finish` can answer. -/
theorem finish_eq_next {op : Mnemonic} {r : Option State} :
    finish s op r = .next t ↔ r = some t ∨ r = none ∧ t = s.raise .boundsViolation (s.opcode op) := by
  cases r <;> simp [eq_comm]

/-- A byte written is the byte read there, and no other byte moves (R35). -/
@[simp] theorem State.memRead_memWrite (s : State) (a v c : Byte) :
    (s.memWrite a v).memRead c = if a = c then v else s.memRead c := by
  simp [State.memRead, State.memWrite, Memory.get_set, BitVec.toNat_inj]

theorem State.wf_memWrite (h : s.mem.wf) (a v : Byte) : (s.memWrite a v).mem.wf :=
  Memory.wf_set h a.isLt v

/-- The integers the rules turn into addresses, as byte arithmetic. -/
theorem ofInt_toNat_add (b : Byte) (k : Nat) : BitVec.ofInt 8 (b.toNat + k : Int) = b + BitVec.ofNat 8 k := by
  apply BitVec.eq_of_toNat_eq
  simp only [BitVec.toNat_ofInt, BitVec.toNat_add, BitVec.toNat_ofNat]
  omega

theorem ofInt_toNat_sub_one (b : Byte) : BitVec.ofInt 8 (b.toNat - 1 : Int) = b - 1 := by
  apply BitVec.eq_of_toNat_eq
  have h1 : (1 : BitVec 8).toNat = 1 := rfl
  simp only [BitVec.toNat_ofInt, BitVec.toNat_sub, h1]
  omega

/-- Under a legal map the advance moves pc by 1 + n, or raises where pc + 1 + n leaves the address range. -/
theorem State.advance_of_ok (hm : s.cfg.opcodeMap.Wf) {op : Mnemonic}
    (h : s.cfg.boundsPolicy = .fault → s.pc.toNat + 1 + op.operandCount ≤ 255) :
    s.advance op = some (s.setPc (s.pc + BitVec.ofNat 8 (1 + op.operandCount))) := by
  have e : (s.pc.toNat + 1 + operandCount (s.opcode op) : Int) = s.pc.toNat + ((1 + op.operandCount : Nat) : Int) := by
    rw [State.opcode, hm.operandCount]; push_cast; omega
  refine State.advance_eq_some.2 ⟨_, ?_, rfl⟩
  rw [e, ← ofInt_toNat_add]
  exact State.addr_of_ok fun hp => by have := h hp; omega

theorem State.advance_of_not_ok (hm : s.cfg.opcodeMap.Wf) {op : Mnemonic} (hp : s.cfg.boundsPolicy = .fault)
    (h : 255 < s.pc.toNat + 1 + op.operandCount) : s.advance op = none := by
  have e : (s.pc.toNat + 1 + operandCount (s.opcode op) : Int) = s.pc.toNat + ((1 + op.operandCount : Nat) : Int) := by
    rw [State.opcode, hm.operandCount]; push_cast; omega
  rw [State.advance, Option.map_eq_none_iff, e]
  exact State.addr_eq_none.2 fun hk => by have := hk hp; omega

theorem State.decSp_of_ok (h : s.cfg.boundsPolicy = .fault → s.sp ≠ 0) : s.decSp = some (s.setReg 7 (s.sp - 1)) := by
  refine State.decSp_eq_some.2 ⟨_, ?_, rfl⟩
  rw [← ofInt_toNat_sub_one]
  refine State.addr_of_ok fun hp => ?_
  have h0 : s.sp.toNat ≠ 0 := fun h0 => h hp (BitVec.eq_of_toNat_eq h0)
  have := s.sp.isLt
  omega

theorem State.decSp_of_not_ok (hp : s.cfg.boundsPolicy = .fault) (h : s.sp = 0) : s.decSp = none := by
  rw [State.decSp, Option.map_eq_none_iff]
  exact State.addr_eq_none.2 fun hk => by have := hk hp; rw [h] at this; simp at this

theorem State.incSp_of_ok (h : s.cfg.boundsPolicy = .fault → s.sp ≠ 255) : s.incSp = some (s.setReg 7 (s.sp + 1)) := by
  refine State.incSp_eq_some.2 ⟨_, ?_, rfl⟩
  have e : BitVec.ofInt 8 (s.sp.toNat + 1 : Int) = s.sp + 1 := ofInt_toNat_add s.sp 1
  rw [← e]
  refine State.addr_of_ok fun hp => ?_
  have h0 : s.sp.toNat ≠ 255 := fun h0 => h hp (BitVec.eq_of_toNat_eq h0)
  have := s.sp.isLt
  omega

theorem State.incSp_of_not_ok (hp : s.cfg.boundsPolicy = .fault) (h : s.sp = 255) : s.incSp = none := by
  rw [State.incSp, Option.map_eq_none_iff]
  exact State.addr_eq_none.2 fun hk => by have := hk hp; rw [h] at this; simp at this

end Sys2Proof.Machine
end

