-- ==== Sys2Proof/Laws/Blocks.lean ====
section
/-! SUPPORT. What the ports of the fetch and the control signals of an instruction can be. -/

namespace Sys2Proof.Machine

/-! The fetch. -/

/-- The fetch answers exactly where all its three reads are made, with their bytes. -/
theorem fetch_eq_reads (s : State) :
    fetch s = match fetchReads s with
      | [i, a, b] => some { ir := i.2, opA := a.2, opB := b.2 }
      | _ => none := by
  unfold fetch fetchReads
  cases s.addr (s.pc.toNat + 1) <;> cases s.addr (s.pc.toNat + 2) <;> simp [readsUntilRaise]

@[simp] theorem fetchPorts_memReads (s : State) : (fetchPorts s).memReads = fetchReads s := rfl
@[simp] theorem fetchPorts_imm (s : State) : (fetchPorts s).imm = (fetchPorts s).opB := rfl

/-- The first read of a step is its opcode byte, under both policies. -/
theorem fetchReads_head (s : State) : (fetchReads s).head? = some (s.pc, (fetchPorts s).ir) := by
  simp [fetchReads, readsUntilRaise, fetchPorts]

/-- Each read returns the byte of memory at its address (R27). -/
theorem readsUntilRaise_data (s : State) (l : List (Option Byte)) :
    ∀ r ∈ readsUntilRaise s l, r.2 = s.memRead r.1 := by
  induction l with
  | nil => simp [readsUntilRaise]
  | cons o rest ih =>
    cases o with
    | none => simp [readsUntilRaise]
    | some a => simpa [readsUntilRaise] using ih

/-! The control signals. -/

@[simp] theorem aluSignals_add (r q : Fin 8) (s : State) :
    aluSignals 0#2 r q s =
      { ra := some r, rb := some q, sel := some 0, w := some (r, aluAdd (s.reg r) (s.reg q)), adv := some 3 } := rfl
@[simp] theorem aluSignals_mul (r q : Fin 8) (s : State) :
    aluSignals 1#2 r q s =
      { ra := some r, rb := some q, sel := some 1, w := some (r, aluMul (s.reg r) (s.reg q)), adv := some 3 } := rfl
@[simp] theorem aluSignals_cmp (r q : Fin 8) (s : State) :
    aluSignals 2#2 r q s =
      { ra := some r, rb := some q, sel := some 2, fl := some (aluCmp (s.reg r) (s.reg q)), adv := some 3 } := rfl

/-- The ALU select of each instruction (R87). -/
def aluSelect : Instr → Option (BitVec 2)
  | .add _ _ => some 0
  | .mul _ _ => some 1
  | .cmp _ _ => some 2
  | .ldi _ _ | .prn _ | .push _ | .pop _ | .call _ | .ret | .jmp _ | .jne _ | .hlt => none

/-- What the control signals of an instruction that does not raise always satisfy: the select is the instruction's own
(R87), at most one data access (R27), at most one of the pc's enables (R19), and fl_en for CMP alone (R23). -/
theorem signals_spec {i : Instr} {s : State} {g : Signals} (h : signals i s = some g) :
    g.sel = aluSelect i ∧ (g.memRd = none ∨ g.mem = none) ∧ (g.adv = none ∨ g.ld = none) ∧
      (g.fl.isSome ↔ g.sel = some 2) := by
  cases i <;> simp only [signals, bind, Option.bind_eq_some_iff, Option.map_eq_some_iff, Option.some.injEq] at h
  case ldi | prn | ret | jmp => obtain ⟨_, -, rfl⟩ := h; simp [aluSelect]
  case add | mul | cmp => obtain ⟨_, -, _, -, rfl⟩ := h; simp [aluSelect]
  case push | pop => obtain ⟨_, -, _, -, rfl⟩ := h; simp [aluSelect]
  case call => obtain ⟨_, -, _, -, _, -, rfl⟩ := h; simp [aluSelect]
  case jne => obtain ⟨_, -, rfl⟩ := h; split <;> simp [aluSelect]
  case hlt => subst h; simp [aluSelect]

/-- Outside RUN no enable is asserted (R19). -/
theorem controlSignals_not_run {s : State} (h : s.fsm ≠ .run) : controlSignals s = {} := by
  unfold controlSignals
  split
  · simp_all
  · rfl

/-- Where the step completes, its ports are those of the instruction fetched, and the blocks do with them what
`applySignals` says. -/
theorem controlSignals_of_applied {s t : State} {f : Fetched} {i : Instr} {g : Signals} (hr : s.fsm = .run)
    (hf : fetch s = some f) (hd : s.decode f = some i) (hg : signals i s = some g) (ha : applySignals g s = some t) :
    controlSignals s = g := by
  have hp : (nextPc g s).isSome := by
    unfold applySignals at ha
    cases hn : nextPc g s <;> simp_all
  simp [controlSignals, hr, hf, hd, hg, Option.filter, hp]

end Sys2Proof.Machine
end

