-- ==== Sys2Proof/Laws/Exec.lean ====
section
/-! SUPPORT. What each meaning, and the step, can do, said once: the next states they can answer. Proofs cite these
instead of unfolding a meaning. `Trapped s op t` is the one way an instruction raises. -/

namespace Sys2Proof.Machine

variable {s t : State} {a b imm : Byte}

/-- t is s with the BoundsViolation of an instruction taken (R107, R108). -/
abbrev Trapped (s : State) (op : Mnemonic) (t : State) : Prop := t = s.raise .boundsViolation (s.opcode op)

/-- t is u with pc moved by the generic advance of `op` from s (R75). -/
abbrev Advanced (s : State) (op : Mnemonic) (u t : State) : Prop :=
  ∃ p, s.addr (s.pc.toNat + 1 + operandCount (s.opcode op)) = some p ∧ t = u.setPc p

theorem execLdi_cases (h : execLdi a imm s = .next t) :
    (∃ i, s.regIndex a = some i ∧ Advanced s .ldi (s.setReg i imm) t) ∨ Trapped s .ldi t := by
  rcases finish_eq_next.1 h with h | ⟨-, h⟩
  · simp only [Option.bind_eq_bind, Option.bind_eq_some_iff, State.advance_eq_some] at h
    simpa using Or.inl h
  · exact .inr h

theorem execPrn_cases (h : execPrn a s = .next t) :
    (∃ i, s.regIndex a = some i ∧ Advanced s .prn (s.emit (s.reg i)) t) ∨ Trapped s .prn t := by
  rcases finish_eq_next.1 h with h | ⟨-, h⟩
  · simp only [Option.bind_eq_bind, Option.bind_eq_some_iff, State.advance_eq_some] at h
    simpa using Or.inl h
  · exact .inr h

theorem execAdd_cases (h : execAdd a b s = .next t) :
    (∃ i j, s.regIndex a = some i ∧ s.regIndex b = some j ∧
      Advanced s .add (s.setReg i (aluAdd (s.reg i) (s.reg j))) t) ∨ Trapped s .add t := by
  rcases finish_eq_next.1 h with h | ⟨-, h⟩
  · simp only [Option.bind_eq_bind, Option.bind_eq_some_iff, State.advance_eq_some] at h
    obtain ⟨i, hi, j, hj, h⟩ := h
    exact .inl ⟨i, j, hi, hj, by simpa using h⟩
  · exact .inr h

theorem execMul_cases (h : execMul a b s = .next t) :
    (∃ i j, s.regIndex a = some i ∧ s.regIndex b = some j ∧
      Advanced s .mul (s.setReg i (aluMul (s.reg i) (s.reg j))) t) ∨ Trapped s .mul t := by
  rcases finish_eq_next.1 h with h | ⟨-, h⟩
  · simp only [Option.bind_eq_bind, Option.bind_eq_some_iff, State.advance_eq_some] at h
    obtain ⟨i, hi, j, hj, h⟩ := h
    exact .inl ⟨i, j, hi, hj, by simpa using h⟩
  · exact .inr h

theorem execCmp_cases (h : execCmp a b s = .next t) :
    (∃ i j, s.regIndex a = some i ∧ s.regIndex b = some j ∧
      Advanced s .cmp (s.setFl (aluCmp (s.reg i) (s.reg j))) t) ∨ Trapped s .cmp t := by
  rcases finish_eq_next.1 h with h | ⟨-, h⟩
  · simp only [Option.bind_eq_bind, Option.bind_eq_some_iff, State.advance_eq_some] at h
    obtain ⟨i, hi, j, hj, h⟩ := h
    exact .inl ⟨i, j, hi, hj, by simpa using h⟩
  · exact .inr h

/-- p is the new stack pointer; the stored byte is x[a] as it reads with R7 = p. -/
theorem execPush_cases (h : execPush a s = .next t) :
    (∃ i p, s.regIndex a = some i ∧ s.addr (s.sp.toNat - 1) = some p ∧
      Advanced s .push ((s.setReg 7 p).memWrite p ((s.setReg 7 p).reg i)) t) ∨ Trapped s .push t := by
  rcases finish_eq_next.1 h with h | ⟨-, h⟩
  · simp only [Option.bind_eq_bind, Option.bind_eq_some_iff, State.advance_eq_some, State.decSp_eq_some] at h
    obtain ⟨i, hi, u, ⟨p, hp, rfl⟩, h⟩ := h
    exact .inl ⟨i, p, hi, hp, by simpa using h⟩
  · exact .inr h

/-- u is s with x[a] loaded; p is the new stack pointer. -/
theorem execPop_cases (h : execPop a s = .next t) :
    (∃ i p u, s.regIndex a = some i ∧ u = s.setReg i (s.memRead s.sp) ∧ s.addr (u.sp.toNat + 1) = some p ∧
      Advanced s .pop (u.setReg 7 p) t) ∨ Trapped s .pop t := by
  rcases finish_eq_next.1 h with h | ⟨-, h⟩
  · simp only [Option.bind_eq_bind, Option.bind_eq_some_iff, State.advance_eq_some, State.incSp_eq_some] at h
    obtain ⟨i, hi, v, ⟨p, hp, rfl⟩, h⟩ := h
    exact .inl ⟨i, p, _, hi, rfl, by simpa using hp, by simpa using h⟩
  · exact .inr h

theorem execCall_cases (h : execCall a s = .next t) :
    (∃ i p ra, s.regIndex a = some i ∧ s.addr (s.sp.toNat - 1) = some p ∧ s.addr (s.pc.toNat + 2) = some ra ∧
      t = ((s.setReg 7 p).memWrite p ra).setPc ((s.setReg 7 p).reg i)) ∨ Trapped s .call t := by
  rcases finish_eq_next.1 h with h | ⟨-, h⟩
  · simp only [Option.bind_eq_bind, Option.bind_eq_some_iff, State.decSp_eq_some] at h
    obtain ⟨i, hi, u, ⟨p, hp, rfl⟩, ra, hra, h⟩ := h
    exact .inl ⟨i, p, ra, hi, hp, hra, by simpa using h.symm⟩
  · exact .inr h

theorem execRet_cases (h : execRet s = .next t) :
    (∃ p, s.addr (s.sp.toNat + 1) = some p ∧ t = (s.setPc (s.memRead s.sp)).setReg 7 p) ∨ Trapped s .ret t := by
  rcases finish_eq_next.1 h with h | ⟨-, h⟩
  · simpa using Or.inl (State.incSp_eq_some.1 h)
  · exact .inr h

theorem execJmp_cases (h : execJmp a s = .next t) :
    (∃ i, s.regIndex a = some i ∧ t = s.setPc (s.reg i)) ∨ Trapped s .jmp t := by
  rcases finish_eq_next.1 h with h | ⟨-, h⟩
  · simp only [Option.bind_eq_bind, Option.bind_eq_some_iff, Option.some.injEq] at h
    obtain ⟨i, hi, h⟩ := h
    exact .inl ⟨i, hi, h.symm⟩
  · exact .inr h

theorem execJne_cases (h : execJne a s = .next t) :
    (∃ i, s.regIndex a = some i ∧
      (flagE s.fl = true ∧ Advanced s .jne s t ∨ flagE s.fl = false ∧ t = s.setPc (s.reg i))) ∨ Trapped s .jne t := by
  rcases finish_eq_next.1 h with h | ⟨-, h⟩
  · simp only [Option.bind_eq_bind, Option.bind_eq_some_iff] at h
    obtain ⟨i, hi, h⟩ := h
    cases he : flagE s.fl
    · exact .inl ⟨i, hi, .inr ⟨rfl, by simpa [he, eq_comm] using h⟩⟩
    · exact .inl ⟨i, hi, .inl ⟨rfl, State.advance_eq_some.1 (by simpa [he] using h)⟩⟩
  · exact .inr h

theorem execHlt_cases (h : execHlt s = .next t) : t = s.halt := by
  simpa [execHlt, eq_comm] using h

/-- Every meaning ends in `finish`. -/
theorem exec_eq_finish (i : Instr) (s : State) : ∃ r, exec i s = finish s i.mnemonic r := by
  cases i
  case hlt => exact ⟨some s.halt, rfl⟩
  all_goals exact ⟨_, rfl⟩

/-- What every instruction does to the control FSM, the fault record and the configuration: it raises, or it leaves the
record and the configuration alone and moves the FSM only for HLT (R25, R70). -/
theorem exec_control_cases {i : Instr} (h : exec i s = .next t) :
    Trapped s i.mnemonic t ∨
      (t.fsm = (if i = .hlt then .halted else s.fsm) ∧ t.cfg = s.cfg ∧ t.faultCause = s.faultCause ∧
        t.faultPc = s.faultPc ∧ t.faultIr = s.faultIr) := by
  cases i with
  | ldi a b => rcases execLdi_cases h with ⟨i, -, p, -, rfl⟩ | h <;> [skip; exact .inl h]; simp
  | prn a => rcases execPrn_cases h with ⟨i, -, p, -, rfl⟩ | h <;> [skip; exact .inl h]; simp
  | add a b => rcases execAdd_cases h with ⟨i, j, -, -, p, -, rfl⟩ | h <;> [skip; exact .inl h]; simp
  | mul a b => rcases execMul_cases h with ⟨i, j, -, -, p, -, rfl⟩ | h <;> [skip; exact .inl h]; simp
  | cmp a b => rcases execCmp_cases h with ⟨i, j, -, -, p, -, rfl⟩ | h <;> [skip; exact .inl h]; simp
  | push a => rcases execPush_cases h with ⟨i, q, -, -, p, -, rfl⟩ | h <;> [skip; exact .inl h]; simp
  | pop a => rcases execPop_cases h with ⟨i, q, u, -, rfl, -, p, -, rfl⟩ | h <;> [skip; exact .inl h]; simp
  | call a => rcases execCall_cases h with ⟨i, q, ra, -, -, -, rfl⟩ | h <;> [skip; exact .inl h]; simp
  | ret => rcases execRet_cases h with ⟨p, -, rfl⟩ | h <;> [skip; exact .inl h]; simp
  | jmp a => rcases execJmp_cases h with ⟨i, -, rfl⟩ | h <;> [skip; exact .inl h]; simp
  | jne a => rcases execJne_cases h with ⟨i, -, ⟨-, p, -, rfl⟩ | ⟨-, rfl⟩⟩ | h <;> [skip; skip; exact .inl h] <;> simp
  | hlt => rw [execHlt_cases h]; simp

/-- Everything a step can do: it starts in RUN, and it raises in the fetch, raises in the decode, or executes. -/
theorem step_cases (h : step s = .next t) :
    s.fsm = .run ∧
      (fetch s = none ∧ t = s.raise .boundsViolation (s.memRead s.pc) ∨
        ∃ f, fetch s = some f ∧
          (s.decode f = none ∧ t = s.raise .decodeError f.ir ∨ ∃ i, s.decode f = some i ∧ exec i s = .next t)) := by
  unfold step stepOf at h
  cases hf : s.fsm <;> simp only [hf] at h
  · refine ⟨rfl, ?_⟩
    unfold cycle at h
    cases hg : fetch s with
    | none => simp only [hg] at h; exact .inl ⟨rfl, by simpa [eq_comm] using h⟩
    | some f =>
      simp only [hg] at h
      cases hd : s.decode f with
      | none => simp only [hd] at h; exact .inr ⟨f, rfl, .inl ⟨hd, by simpa [eq_comm] using h⟩⟩
      | some i => simp only [hd] at h; exact .inr ⟨f, rfl, .inr ⟨i, hd, h⟩⟩
  · cases h
  · cases h

/-- What the fetch holds when it does not raise (R71). -/
theorem fetch_eq_some {f : Fetched} :
    fetch s = some f ↔ AddrOk s (s.pc.toNat + 2) ∧
      f = { ir := s.memRead s.pc, opA := s.memRead (s.pc + 1), opB := s.memRead (s.pc + 2) } := by
  have h1 := ofInt_toNat_add s.pc 1
  have h2 := ofInt_toNat_add s.pc 2
  simp only [Nat.cast_one, Nat.cast_ofNat] at h1 h2
  simp only [fetch, Option.bind_eq_bind, Option.bind_eq_some_iff, State.addr_eq_some, Option.some.injEq]
  constructor
  · rintro ⟨_, ⟨-, rfl⟩, _, ⟨hk, rfl⟩, rfl⟩
    exact ⟨hk, by rw [h1, h2]; rfl⟩
  · rintro ⟨hk, rfl⟩
    refine ⟨_, ⟨fun hp => ?_, rfl⟩, _, ⟨hk, rfl⟩, by rw [h1, h2]; rfl⟩
    have := hk hp
    omega

end Sys2Proof.Machine
end

