-- ==== Sys2Proof/Laws/HostView.lean ====
section
/-! SUPPORT. What loading an image and placing a fetch word do to memory, and what the host reports of an end. -/

namespace Sys2Proof.Machine

theorem loadImage_get (image : List Byte) (m : Memory) (k a : Nat) :
    (loadImage m k image).get a = if k ≤ a then (image[a - k]?).getD (m.get a) else m.get a := by
  induction image generalizing m k with
  | nil => simp [loadImage]
  | cons b bs ih =>
    rw [loadImage, ih, Memory.get_set]
    rcases Nat.lt_trichotomy k a with h | h | h
    · rw [if_pos (show k + 1 ≤ a by omega), if_pos (show k ≤ a by omega), if_neg (show k ≠ a by omega)]
      have e : a - k = (a - (k + 1)) + 1 := by omega
      rw [e, List.getElem?_cons_succ]
    · subst h; simp
    · rw [if_neg (by omega), if_neg (by omega), if_neg (by omega)]

theorem loadImage_wf (image : List Byte) {m : Memory} {k : Nat} (h : m.wf) (hk : k + image.length ≤ 256) :
    (loadImage m k image).wf := by
  induction image generalizing m k with
  | nil => exact h
  | cons b bs ih =>
    rw [List.length_cons] at hk
    exact ih (Memory.wf_set h (by omega) b) (by omega)

theorem withFetchWord_wf {s : State} (h : s.mem.wf) (nbits w : Nat) : (s.withFetchWord nbits w).mem.wf :=
  State.wf_memWrite (State.wf_memWrite (State.wf_memWrite h _ _) _ _) _ _

@[simp] theorem withFetchWord_pc (s : State) (nbits w : Nat) : (s.withFetchWord nbits w).pc = s.pc := rfl
@[simp] theorem withFetchWord_cfg (s : State) (nbits w : Nat) : (s.withFetchWord nbits w).cfg = s.cfg := rfl
@[simp] theorem withFetchWord_fsm (s : State) (nbits w : Nat) : (s.withFetchWord nbits w).fsm = s.fsm := rfl

/-- The three bytes of the word stand at pc, pc + 1 and pc + 2. -/
theorem memRead_withFetchWord (s : State) (nbits w : Nat) :
    (s.withFetchWord nbits w).memRead s.pc = tableByte nbits w 0 ∧
      (s.withFetchWord nbits w).memRead (s.pc + 1) = tableByte nbits w 1 ∧
      (s.withFetchWord nbits w).memRead (s.pc + 2) = tableByte nbits w 2 := by
  refine ⟨?_, ?_, ?_⟩
  · simp [State.withFetchWord, storeFetchWord]
  · simp [State.withFetchWord, storeFetchWord]
  · simp [State.withFetchWord, storeFetchWord]

/-! The end of a run (R112). -/

@[simp] theorem hostReport_halt (s : State) : hostReport s.halt = some .nothing := rfl
@[simp] theorem hostReport_raise_decodeError (s : State) (ir : Byte) :
    hostReport (s.raise .decodeError ir) = some (.unknownOpcode ir s.pc) := rfl
@[simp] theorem hostReport_raise_boundsViolation (s : State) (ir : Byte) :
    hostReport (s.raise .boundsViolation ir) = some (.boundsViolation ir s.pc) := rfl

/-- The host has a report exactly where the process has an exit status. -/
theorem hostReport_isSome (e : ExitStatuses) (s : State) : (hostReport s).isSome = (exitStatus e s).isSome := by
  unfold hostReport exitStatus
  split <;> simp_all

/-- Status 0 goes with nothing to report, under the statuses R112 allows. -/
theorem hostReport_nothing_iff {e : ExitStatuses} (he : e.Wf) (s : State) :
    hostReport s = some .nothing ↔ exitStatus e s = some 0 := by
  obtain ⟨h1, h2, h3, h4, h5⟩ := he
  unfold hostReport exitStatus
  split <;> simp_all

end Sys2Proof.Machine
end

