-- ==== Sys2Proof/Laws/PerInstr.lean ====
section
/-! SUPPORT. Family OpcodeShape: under a legal map (spec/30_encoding.md R60) the top two bits of an instruction's opcode
byte count the operand bytes that its encoding has (R52, R53). -/

namespace Sys2Proof.Laws.OpcodeShape

def Statement (i : Instr) : Prop :=
  ∀ m : OpcodeMap, m.Wf → operandCount (m.code i.mnemonic) = i.operandBytes.length

theorem ldi (a imm : Byte) : Statement (.ldi a imm) := fun _ h => h.operandCount .ldi
theorem prn (a : Byte) : Statement (.prn a) := fun _ h => h.operandCount .prn
theorem add (a b : Byte) : Statement (.add a b) := fun _ h => h.operandCount .add
theorem mul (a b : Byte) : Statement (.mul a b) := fun _ h => h.operandCount .mul
theorem cmp (a b : Byte) : Statement (.cmp a b) := fun _ h => h.operandCount .cmp
theorem push (a : Byte) : Statement (.push a) := fun _ h => h.operandCount .push
theorem pop (a : Byte) : Statement (.pop a) := fun _ h => h.operandCount .pop
theorem call (a : Byte) : Statement (.call a) := fun _ h => h.operandCount .call
theorem ret : Statement .ret := fun _ h => h.operandCount .ret
theorem jmp (a : Byte) : Statement (.jmp a) := fun _ h => h.operandCount .jmp
theorem jne (a : Byte) : Statement (.jne a) := fun _ h => h.operandCount .jne
theorem hlt : Statement .hlt := fun _ h => h.operandCount .hlt

end Sys2Proof.Laws.OpcodeShape
end

