-- ==== Sys2Proof/Laws/Run.lean ====
section
/-! SUPPORT. Runs of the machine: one step more, and that a run from a state without a step goes nowhere. -/

namespace Sys2Proof.Machine

variable {s t : State}

@[simp] theorem run_zero : core.run 0 s = .next t ↔ s = t := by
  constructor
  · intro h; cases h; rfl
  · rintro rfl; rfl

theorem run_succ {k : Nat} : core.run (k + 1) s = .next t ↔ ∃ u, step s = .next u ∧ core.run k u = .next t := by
  cases hs : step s with
  | next u =>
    have hc : core.step s = .next u := hs
    simp [Host.Core.run, hc]
  | fault r =>
    have hc : core.step s = .fault r := hs
    simp [Host.Core.run, hc]
  | refused r =>
    have hc : core.step s = .refused r := hs
    simp [Host.Core.run, hc]

/-- HALTED and FAULTED are final (R77, R78). -/
theorem run_of_not_run (h : s.fsm ≠ .run) {k : Nat} (hk : core.run k s = .next t) : s = t := by
  cases k with
  | zero => exact run_zero.1 hk
  | succ k =>
    obtain ⟨u, hu, -⟩ := run_succ.1 hk
    exact absurd (step_cases hu).1 h

end Sys2Proof.Machine
end

