-- ==== Sys2Proof/Tests/Slice0.lean ====
section
/-! SUPPORT. Tests. Expected results are the vectors of spec/95_test_vectors.md (their ids are in the names) or the
encodings of spec/30_encoding.md R59; the witnesses show states that meet the hypotheses of each statement. -/

namespace Sys2Proof.Tests

open Machine

/-- The reset state with a policy, a pc and some bytes in memory. -/
def start (p : BoundsPolicy) (pc : Byte) (cells : List (Nat × Byte)) : State :=
  { State.reset with
    pc := pc
    mem := cells.foldl (fun m c => m.set c.1 c.2) []
    cfg := { defaultConfig with boundsPolicy := p } }

def next? (r : Result) : Option State :=
  match r with
  | .next t => some t
  | .fault _ => none
  | .refused _ => none

/-- A value of the next state. -/
def after {α : Type} (f : State → α) (s : State) : Option α := (next? (step s)).map f

/-- fsm, cause, fault_pc, fault_ir and pc. -/
def entry (s : State) : Fsm × FaultCause × Byte × Byte × Byte := (s.fsm, s.faultCause, s.faultPc, s.faultIr, s.pc)

/-! Well-formedness: one ill-formed term for each check. -/

theorem smoke_regA_out_of_range : ¬ (Instr.ldi 8 0).Wf := by decide
theorem smoke_regB_out_of_range : ¬ (Instr.add 7 8).Wf := by decide
theorem smoke_immediate_is_no_register : (Instr.ldi 7 255).Wf := by decide
theorem smoke_map_two_equal_bytes : ¬ ({ defaultOpcodeMap with mul := 0xA0 } : OpcodeMap).Wf := by decide
/-- 90_conflicts.md C1: 0x08 is no legal byte for LDI. -/
theorem smoke_map_wrong_top_bits : ¬ ({ defaultOpcodeMap with ldi := 0x08 } : OpcodeMap).Wf := by decide
theorem smoke_map_default : defaultOpcodeMap.Wf := by decide
theorem smoke_exit_zero : ¬ (ExitStatuses.mk 0 3).Wf := by decide
theorem smoke_exit_load_error : ¬ (ExitStatuses.mk 1 2).Wf := by decide
theorem smoke_exit_equal : ¬ (ExitStatuses.mk 3 3).Wf := by decide

/-! Decoding: every constructor from its bytes, written out from R59. -/

theorem decode_ldi : decodeFetched defaultOpcodeMap 0b10000010 0b00000000 0b00001000 = some (.ldi 0 8) := by decide
theorem decode_prn : decodeFetched defaultOpcodeMap 0b01000111 0b00000011 0b11111111 = some (.prn 3) := by decide
theorem decode_add : decodeFetched defaultOpcodeMap 0b10100000 0b00000001 0b00000010 = some (.add 1 2) := by decide
theorem decode_mul : decodeFetched defaultOpcodeMap 0b10100010 0b00000001 0b00000010 = some (.mul 1 2) := by decide
theorem decode_cmp : decodeFetched defaultOpcodeMap 0b10100111 0b00000001 0b00000010 = some (.cmp 1 2) := by decide
theorem decode_push : decodeFetched defaultOpcodeMap 0b01000101 0b00000111 0b00000000 = some (.push 7) := by decide
theorem decode_pop : decodeFetched defaultOpcodeMap 0b01000110 0b00000010 0b00000000 = some (.pop 2) := by decide
theorem decode_call : decodeFetched defaultOpcodeMap 0b01010000 0b00000001 0b00000000 = some (.call 1) := by decide
theorem decode_ret : decodeFetched defaultOpcodeMap 0b00010001 0b10101010 0b01010101 = some .ret := by decide
theorem decode_jmp : decodeFetched defaultOpcodeMap 0b01010100 0b00000011 0b00000000 = some (.jmp 3) := by decide
theorem decode_jne : decodeFetched defaultOpcodeMap 0b01010110 0b00000011 0b00000000 = some (.jne 3) := by decide
theorem decode_hlt : decodeFetched defaultOpcodeMap 0b00000001 0b10101010 0b01010101 = some .hlt := by decide
theorem decode_jeq_is_illegal : decodeOp defaultOpcodeMap 0x55 = none := by decide
theorem decode_bytes_short : decodeBytes defaultOpcodeMap [0x82, 0x00] = .error (.missingOperand .ldi) := rfl
theorem decode_bytes_rest : decodeBytes defaultOpcodeMap [0x47, 0x00, 0x01] = .ok (.prn 0, [0x01]) := rfl

/-! Instructions, one step each. -/

theorem test_V4_ldi_masks_register :
    after (fun t => (t.reg 1, t.pc)) (start .mask 0 [(0, 0x82), (1, 0x09), (2, 0x2A)]) = some (42, 3) := by decide
theorem test_V7_ldi_advance_faults :
    after (fun t => (entry t, t.reg 4)) (start .fault 253 [(253, 0x82), (254, 0x04), (255, 0x07)]) =
      some ((.faulted, .boundsViolation, 253, 0x82, 253), 0) := by decide
theorem test_V11_prn_sp :
    after (fun t => (t.out, t.pc)) (start .mask 0 [(0, 0x47), (1, 0x07)]) = some ([244], 2) := by decide
theorem test_V13_prn_faults_silently :
    after (fun t => (t.out, t.faultCause)) (start .fault 0 [(0, 0x47), (1, 0x0F)]) =
      some ([], .boundsViolation) := by decide
theorem test_A2_add_wraps_and_keeps_fl :
    after (fun t => (t.reg 0, t.fl))
      ((((start .mask 0 [(0, 0xA0), (1, 0x00), (2, 0x01)]).setReg 0 200).setReg 1 100).setFl 4) =
      some (44, 4) := by decide
theorem test_X2_add_regB_faults :
    after (fun t => (t.reg 0, t.faultCause))
      ((start .fault 0 [(0, 0xA0), (1, 0x00), (2, 0x08)]).setReg 0 3) = some (3, .boundsViolation) := by decide
theorem test_M3_mul_low_byte :
    after (fun t => (t.reg 0, t.reg 1))
      (((start .mask 0 [(0, 0xA2), (1, 0x00), (2, 0x01)]).setReg 0 255).setReg 1 255) = some (1, 255) := by decide
theorem test_M7_mul_square :
    after (fun t => t.reg 2) ((start .mask 0 [(0, 0xA2), (1, 0x02), (2, 0x02)]).setReg 2 13) = some 169 := by decide
theorem test_C4_cmp_unsigned :
    after (fun t => (t.fl, t.pc))
      (((start .mask 0 [(0, 0xA7), (1, 0x00), (2, 0x01)]).setReg 0 255).setReg 1 1) = some (2, 3) := by decide
theorem test_C7_cmp_rewrites_fl :
    after (fun t => t.fl)
      ((((start .mask 0 [(0, 0xA7), (1, 0x00), (2, 0x01)]).setReg 0 9).setReg 1 9).setFl 2) = some 1 := by decide
theorem test_S2_push_r7 :
    after (fun t => (t.sp, t.memRead 0xF3, t.pc)) (start .mask 0 [(0, 0x45), (1, 0x07)]) =
      some (0xF3, 0xF3, 2) := by decide
theorem test_S3_push_wraps :
    after (fun t => (t.sp, t.memRead 0xFF)) (((start .mask 0 [(0, 0x45), (1, 0x01)]).setReg 7 0).setReg 1 9) =
      some (0xFF, 9) := by decide
theorem test_S6_pop_r7 :
    after (fun t => t.sp) ((start .mask 0 [(0, 0x46), (1, 0x07), (0xF3, 0x10)]).setReg 7 0xF3) = some 0x11 := by decide
theorem test_S8_pop_faults :
    after (fun t => (t.reg 0, t.sp, t.faultCause)) ((start .fault 0 [(0, 0x46), (0xFF, 3)]).setReg 7 0xFF) =
      some (0, 0xFF, .boundsViolation) := by decide
theorem test_T2_call_r7 :
    after (fun t => (t.sp, t.memRead 0xF3, t.pc)) (start .mask 6 [(6, 0x50), (7, 0x07)]) =
      some (0xF3, 8, 0xF3) := by decide
theorem test_T4_call_last_return_address :
    after (fun t => (t.memRead 0xF3, t.pc)) ((start .fault 253 [(253, 0x50)]).setReg 0 0x20) =
      some (255, 0x20) := by decide
theorem test_T7_ret :
    after (fun t => (t.pc, t.sp)) ((start .mask 0 [(0, 0x11), (0xF3, 8)]).setReg 7 0xF3) = some (8, 0xF4) := by decide
theorem test_T9_ret_faults :
    after (fun t => (entry t, t.sp)) ((start .fault 0x10 [(0x10, 0x11)]).setReg 7 0xFF) =
      some ((.faulted, .boundsViolation, 0x10, 0x11, 0x10), 0xFF) := by decide
theorem test_T10_jmp :
    after (fun t => t.pc) ((start .mask 0 [(0, 0x54), (1, 0x03)]).setReg 3 12) = some 12 := by decide
theorem test_T13_jne_not_taken :
    after (fun t => t.pc) (((start .mask 20 [(20, 0x56), (21, 0x03)]).setReg 3 12).setFl 1) = some 22 := by decide
theorem test_T16_jne_checks_register :
    after (fun t => t.faultCause) ((start .fault 20 [(20, 0x56), (21, 0x09)]).setFl 1) =
      some .boundsViolation := by decide
theorem test_H2_hlt_at_top :
    after (fun t => (t.fsm, t.pc)) (start .mask 255 [(255, 0x01)]) = some (.halted, 255) := by decide
theorem test_H3_hlt_fetch_faults :
    after entry (start .fault 255 [(255, 0x01)]) = some (.faulted, .boundsViolation, 255, 0x01, 255) := by decide

/-! Exceptions, terminal states, the host's placing of a word, launch, ports. -/

theorem test_E3_jeq_decode_error :
    after entry (start .mask 9 [(9, 0x55)]) = some (.faulted, .decodeError, 9, 0x55, 9) := by decide
theorem test_E7_fetch_before_decode :
    after (fun t => t.faultCause) (start .fault 255 []) = some .boundsViolation := by decide
theorem test_E8_faulted_has_no_step : step { State.reset with fsm := .faulted } = .fault .faultedNoStep := rfl
theorem test_E9_halted_has_no_step : step { State.reset with fsm := .halted } = .fault .haltedNoStep := rfl
theorem test_fetch_word : after (fun t => (t.reg 0, t.pc)) (State.reset.withFetchWord 24 0x080082) = some (8, 3) := by
  decide
theorem test_P6_pushed_byte_is_decoded :
    ((next? (step ({ State.reset with pc := 6, mem := [(6, 0x45), (8, 0x47), (10, 1)] }.setReg 0 1 |>.setReg 7 9))).bind
      fun t => (fetch t).bind t.decode) = some .hlt := by decide
theorem test_launch_P1 :
    (launch defaultConfig [(0, 7), (9, 9)] [0x82, 0x00, 0x08]).map (fun s => s.mem) =
      some [(0, 0x82), (2, 0x08), (9, 9)] := by decide
theorem test_launch_too_long : launch defaultConfig [] (List.replicate 257 1) = none :=
  if_neg (by rw [List.length_replicate]; decide)
theorem test_exit_P5 :
    exitStatus ⟨1, 3⟩ (State.reset.raise .decodeError 0x55) = some 1 := by decide
/-- P5 (opcode 0x55 at pc 9) and the rows of R112. -/
theorem test_host_reports :
    after hostReport (start .mask 9 [(9, 0x55)]) = some (some (.unknownOpcode 0x55 9)) ∧
      after hostReport (start .fault 255 [(255, 0x01)]) = some (some (.boundsViolation 0x01 255)) ∧
      (HostReport.boundsViolation 0x01 255).words = some "bounds violation" ∧
      after hostReport (start .mask 0 [(0, 0x01)]) = some (some .nothing) ∧ hostReport State.reset = none := by decide
theorem test_host_lines : hostLines { State.reset with out := [3, 2, 1] } = ["3", "2", "1"] := by decide
theorem test_memory_zero_is_unlisted : Memory.set [(5, 1)] 5 0 = [] := by decide

/-- R36 and R71: at pc = 254 under `fault` the read at addr(255) is made before addr(256) raises; at 255 only one is. -/
theorem test_fetch_reads_before_raise :
    (fetchPorts (start .fault 254 [(254, 0x50), (255, 3)])).memReads = [(254, 0x50), (255, 3)] ∧
      (fetchPorts (start .fault 254 [(254, 0x50), (255, 3)])).opA = some 3 ∧
      (fetchPorts (start .fault 255 [])).memReads = [(255, 0)] := by decide
theorem test_fetch_reads_wrap :
    (fetchPorts (start .mask 255 [(0, 5), (1, 6)])).memReads = [(255, 0), (0, 5), (1, 6)] := by decide
/-- R87: sel 2 is CMP; R19: a step that raises asserts no enable. -/
theorem test_control_signals :
    (controlSignals (start .mask 0 [(0, 0xA7)])).sel = some 2 ∧
      (controlSignals (start .mask 0 [(0, 0xA2)])).sel = some 1 ∧
      controlSignals (start .fault 253 [(253, 0xA0)]) = {} := by decide

/-! Witnesses. `sm` runs under `mask`, `sf p` under `fault` at pc p. -/

def sm : State := start .mask 0 []
def sf (pc : Byte) : State := start .fault pc []

theorem witness_DecodeMatchesOpcodeMap : sm.cfg.opcodeMap.Wf := by decide
theorem witness_ThreeOperandPatternIsIllegal :
    defaultOpcodeMap.Wf ∧ (0xC0 : Byte).extractLsb' 6 2 = 0b11#2 ∧ (0xFF : Byte).extractLsb' 6 2 = 0b11#2 := by decide
theorem witness_EncodingIsOpcodeThenCountedOperands : defaultOpcodeMap.Wf := by decide
theorem witness_DecodeOfEncodeIsIdentity : ({ defaultOpcodeMap with hlt := 0x3F } : OpcodeMap).Wf := by decide
theorem witness_DecodedBytesAreTheEncoding :
    defaultOpcodeMap.Wf ∧ decodeBytes defaultOpcodeMap [0xA0, 0x00, 0xFF] = .ok (.add 0 0xFF, []) :=
  ⟨by decide, rfl⟩
theorem witness_UnusedOperandBytesAreIgnored :
    decodeOp defaultOpcodeMap 0x11 = some .ret ∧ Mnemonic.ret.operandCount = 0 ∧
      decodeOp defaultOpcodeMap 0x45 = some .push ∧ Mnemonic.push.operandCount = 1 := by decide
theorem witness_MemWriteSetsOneCellUntilRewritten : ∀ w ∈ [((0 : Byte), (1 : Byte)), (254, 2)], w.1 ≠ 255 := by
  simp
theorem witness_CanonicalMemoryIsItsBytes :
    Memory.wf [(0, 1), (255, 2)] ∧ ∀ a < 256, Memory.get [(0, 1), (255, 2)] a = Memory.get [(0, 1), (255, 2)] a :=
  ⟨by decide, fun _ _ => rfl⟩
theorem witness_AddrWrapsOrChecks :
    sm.cfg.boundsPolicy = .mask ∧ (sf 0).cfg.boundsPolicy = .fault ∧ (sf 0).addr 255 = some 255 ∧
      (sf 0).addr 256 = none ∧ (sf 0).addr (-1) = none ∧ sm.addr (-1) = some 255 ∧ sm.addr 256 = some 0 := by decide
theorem witness_RegWrapsOrChecks :
    (sf 0).regIndex 7 = some 7 ∧ (sf 0).regIndex 8 = none ∧ sm.regIndex 8 = some 0 ∧ sm.regIndex 255 = some 7 := by decide
theorem witness_AluCmpIsUnsignedOneHot :
    (0 : Byte).toNat = (0 : Byte).toNat ∧ (255 : Byte).toNat > (0 : Byte).toNat ∧
      (0 : Byte).toNat < (255 : Byte).toNat := by decide

/-- LDI, ADD, MUL and CMP share their bounds: pc 252 and register 7 complete, pc 253 or register 8 raises. -/
theorem witness_three_byte_instructions :
    (sf 252).cfg.opcodeMap.Wf ∧ (sf 252).cfg.boundsPolicy = .fault ∧
      ((7 : Byte).toNat ≤ 7 ∧ (7 : Byte).toNat ≤ 7 ∧ (sf 252).pc.toNat ≤ 252) ∧
      ¬ ((7 : Byte).toNat ≤ 7 ∧ (7 : Byte).toNat ≤ 7 ∧ (sf 253).pc.toNat ≤ 252) ∧
      ¬ ((7 : Byte).toNat ≤ 7 ∧ (8 : Byte).toNat ≤ 7 ∧ (sf 0).pc.toNat ≤ 252) := by decide
/-- LDI. -/
theorem witness_LdiLoadsImmediate :
    (sf 252).cfg.opcodeMap.Wf ∧ (sf 252).cfg.boundsPolicy = .fault ∧
      ((7 : Byte).toNat ≤ 7 ∧ (sf 252).pc.toNat ≤ 252) ∧ ¬ ((7 : Byte).toNat ≤ 7 ∧ (sf 253).pc.toNat ≤ 252) ∧
      ¬ ((8 : Byte).toNat ≤ 7 ∧ (sf 0).pc.toNat ≤ 252) := by decide
/-- PRN; PUSH and CALL have the clause on SP beside it. -/
theorem witness_PrnEmitsRegister :
    (sf 253).cfg.opcodeMap.Wf ∧ (sf 253).cfg.boundsPolicy = .fault ∧
      ((7 : Byte).toNat ≤ 7 ∧ (sf 253).pc.toNat ≤ 253) ∧ ¬ ((7 : Byte).toNat ≤ 7 ∧ (sf 254).pc.toNat ≤ 253) := by decide
theorem witness_PushStoresAtDecrementedSp_and_Call :
    ((7 : Byte).toNat ≤ 7 ∧ ((sf 253).setReg 7 1).pc.toNat ≤ 253 ∧ ((sf 253).setReg 7 1).sp ≠ 0) ∧
      ¬ ((7 : Byte).toNat ≤ 7 ∧ ((sf 253).setReg 7 0).pc.toNat ≤ 253 ∧ ((sf 253).setReg 7 0).sp ≠ 0) := by decide
/-- Both operands: R7, where the loaded byte decides, and another register, where SP does. -/
theorem witness_PopLoadsThenIncrementsSp :
    lowIndex 7 = 7 ∧ ((start .fault 0 [(0xFF, 254)]).setReg 7 0xFF).memRead 0xFF ≠ 255 ∧
      ¬ (start .fault 0 [(0xF4, 255)]).memRead 0xF4 ≠ 255 ∧
    lowIndex 6 ≠ 7 ∧ ((sf 0).setReg 7 0xFE).sp ≠ 255 ∧ ¬ ((sf 0).setReg 7 0xFF).sp ≠ 255 := by decide
theorem witness_RetLoadsPcThenIncrementsSp :
    ((sf 0).setReg 7 254).sp ≠ 255 ∧ (sf 0).cfg.boundsPolicy = .fault ∧ ((sf 0).setReg 7 255).sp = 255 := by decide
/-- RET, JMP, JNE and HLT: the clause on the fetch. -/
theorem witness_FetchRaisesNearTop :
    (sf 254).fsm = .run ∧ (sf 254).cfg.boundsPolicy = .fault ∧ 254 ≤ (sf 254).pc.toNat := by decide
theorem witness_JmpLoadsPcExactly :
    (sf 0).cfg.boundsPolicy = .fault ∧ (7 : Byte).toNat ≤ 7 ∧ 7 < (8 : Byte).toNat := by decide
theorem witness_JneJumpsWhereEqualIsClear :
    (sf 253).cfg.opcodeMap.Wf ∧ (7 : Byte).toNat ≤ 7 ∧ (sf 253).pc.toNat ≤ 253 ∧ (sf 253).fl.getLsbD 0 = false ∧
      ((sf 253).setFl 1).fl.getLsbD 0 = true ∧ 7 < (8 : Byte).toNat := by decide
theorem witness_StepRunsTheDecodedInstruction :
    let s := start .fault 253 [(253, 0x54), (254, 0x03), (255, 0xFF)]
    s.fsm = .run ∧ s.pc.toNat ≤ 253 ∧
      decodeFetched s.cfg.opcodeMap (s.memRead s.pc) (s.memRead (s.pc + 1)) (s.memRead (s.pc + 2)) = some (.jmp 3) := by
  decide
theorem witness_PlacedInstructionIsExecuted :
    let s := start .mask 255 [(255, 0x82), (0, 0x01), (1, 0x02)]
    s.cfg.opcodeMap.Wf ∧ s.fsm = .run ∧ PlacedAtPc (.ldi 1 2) s :=
  ⟨by decide, rfl, [], rfl⟩
theorem witness_FetchWordIsTheNextInstruction :
    (sf 253).cfg.opcodeMap = defaultOpcodeMap ∧ (sf 253).fsm = .run ∧ (sf 253).pc.toNat ≤ 253 ∧
      decodeTableWord 8 0x45 = some (.push 0) := by decide
theorem witness_IllegalOpcodeRaisesDecodeError :
    (sf 253).fsm = .run ∧ (sf 253).pc.toNat ≤ 253 ∧ ∀ op, (sf 253).cfg.opcodeMap.code op ≠ (sf 253).memRead (sf 253).pc :=
  ⟨rfl, by decide, fun op => by cases op <;> decide⟩
/-- One state for each clause: fetch, opcode, register operand. -/
theorem witness_ExceptionsFollowPriority :
    after (fun t => t.faultCause) (sf 254) = some .boundsViolation ∧
      after (fun t => t.faultCause) (sf 253) = some .decodeError ∧
      after (fun t => t.faultCause) (start .fault 253 [(253, 0x54), (254, 8)]) = some .boundsViolation := by decide
theorem witness_ExceptionsArePrecise :
    ∃ t, step (sf 0) = .next t ∧ t.fsm = .faulted := ⟨_, rfl, rfl⟩
theorem witness_MaskNeverRaisesBoundsViolation :
    ∃ t, sm.cfg.boundsPolicy = .mask ∧ step sm = .next t ∧ t.fsm = .faulted := ⟨_, rfl, rfl, rfl⟩
theorem witness_OnlyHltHalts :
    ∃ t, step (start .fault 253 [(253, 1)]) = .next t ∧ t.fsm = .halted := ⟨_, rfl, rfl⟩
theorem witness_OnlyCmpWritesFlags :
    (∃ t, exec (.add 0 1) sm = .next t) ∧ ∃ t, exec (.cmp 0 7) sm = .next t ∧ sm.fsm = .run ∧ t.fsm ≠ .faulted :=
  ⟨⟨_, rfl⟩, ⟨_, rfl, rfl, by decide⟩⟩
/-- The raising branch of CMP: regB = 8 under `fault`, with fl not 0 before. -/
theorem witness_OnlyCmpWritesFlags_raising :
    ∃ t, ((sf 0).setFl 4).fsm = .run ∧ exec (.cmp 0 8) ((sf 0).setFl 4) = .next t ∧ t.fsm = .faulted ∧ t.fl = 4 :=
  ⟨_, rfl, rfl, rfl, rfl⟩
theorem witness_OnlyPushAndCallWriteMemory :
    (∃ t, exec (.pop 0) sm = .next t) ∧ ∀ a, Instr.pop 0 ≠ .push a ∧ Instr.pop 0 ≠ .call a :=
  ⟨⟨_, rfl⟩, fun a => by constructor <;> intro h <;> cases h⟩
theorem witness_StackStoresTouchOneByte :
    (∃ t, exec (.push 1) sm = .next t) ∧ sm.addr (sm.sp.toNat - 1) = some 0xF3 ∧
      (∃ t, exec (.call 1) ((sf 0).setReg 7 0) = .next t) ∧
      ((sf 0).setReg 7 0).addr (((sf 0).setReg 7 0).sp.toNat - 1) = none :=
  ⟨⟨_, rfl⟩, by decide, ⟨_, rfl⟩, by decide⟩
theorem witness_OnlyTabulatedRegistersChange :
    (∃ t, exec (.pop 0) sm = .next t) ∧ (6 : Fin 8) ∉ writtenRegs (.pop 0) := ⟨⟨_, rfl⟩, by decide⟩
theorem witness_UntouchedRegistersDoNotMatter :
    (6 : Fin 8) ∉ touchedRegs (.push 5) ∧ ∃ t, exec (.push 5) sm = .next t := ⟨by decide, ⟨_, rfl⟩⟩
theorem witness_OnlyEqualFlagIsRead :
    (0b110 : Byte).getLsbD 0 = sm.fl.getLsbD 0 ∧ (∃ t, exec (.jne 0) sm = .next t) ∧ (∀ a, Instr.ret ≠ .jne a) ∧
      ∃ t, exec .ret sm = .next t := ⟨by decide, ⟨_, rfl⟩, nofun, ⟨_, rfl⟩⟩
theorem witness_OutputGrowsOnlyByPrn :
    ∃ t, step (start .mask 0 [(0, 0x47)]) = .next t ∧ t.out = [0] := ⟨_, rfl, rfl⟩
theorem witness_FaultRecordWrittenOnlyOnFault :
    ∃ t, step (start .mask 0 [(0, 0x82)]) = .next t ∧ t.fsm ≠ .faulted := ⟨_, rfl, by decide⟩
theorem witness_NonJumpsAdvanceByLength :
    ∃ t, sm.cfg.opcodeMap.Wf ∧ sm.fsm = .run ∧ exec (.jne 0) (sm.setFl 1) = .next t ∧ t.fsm = .run ∧
      (∀ a, Instr.jne 0 ≠ .call a ∧ Instr.jne 0 ≠ .jmp a) ∧ (sm.setFl 1).fl.getLsbD 0 = true :=
  ⟨_, by decide, rfl, rfl, rfl, fun _ => ⟨nofun, nofun⟩, by decide⟩
theorem witness_PushThenPopTransfers :
    let s := (sf 251).setReg 7 1
    s.cfg.opcodeMap.Wf ∧ lowIndex 0 ≠ 7 ∧ lowIndex 6 ≠ 7 ∧ s.pc.toNat ≤ 251 ∧ s.sp ≠ 0 := by decide
theorem witness_CallThenRetReturns :
    let s := (sf 253).setReg 7 1
    (7 : Byte).toNat ≤ 7 ∧ s.pc.toNat ≤ 253 ∧ s.sp ≠ 0 ∧ ∃ t, exec (.call 7) s = .next t ∧ t.fsm = .run :=
  ⟨by decide, by decide, by decide, _, rfl, rfl⟩
theorem witness_CmpThenJneBranchesOnInequality :
    (sf 250).cfg.opcodeMap.Wf ∧ (sf 250).pc.toNat ≤ 250 ∧ (sf 250).reg 0 = (sf 250).reg 1 ∧
      (sf 250).reg 0 ≠ (sf 250).reg 7 := by decide
theorem witness_PushedByteIsFetched :
    let s := sm.setReg 7 3
    ∃ t f, s.fsm = .run ∧ lowIndex 1 ≠ 7 ∧ exec (.push 1) s = .next t ∧ t.fsm = .run ∧ t.pc = t.sp ∧
      fetch t = some f := ⟨_, _, rfl, by decide, rfl, rfl, by decide, rfl⟩
theorem witness_JmpToItselfLoopsForever :
    let s := (start .fault 253 [(253, 0x54), (254, 0x03)]).setReg 3 253
    s.cfg.opcodeMap.Wf ∧ s.fsm = .run ∧ (3 : Byte).toNat ≤ 7 ∧ s.pc.toNat ≤ 253 ∧
      s.memRead s.pc = s.cfg.opcodeMap.code .jmp ∧ s.memRead (s.pc + 1) = 3 ∧ s.reg (lowIndex 3) = s.pc := by decide
theorem witness_LaunchPlacesImage :
    256 < (List.replicate 257 (0 : Byte)).length ∧ (List.replicate 256 (0 : Byte)).length ≤ 256 := by
  rw [List.length_replicate, List.length_replicate]; decide
theorem witness_StepKeepsInvariant : ∃ t, Inv sm ∧ step sm = .next t :=
  ⟨_, ⟨by decide, by decide, by decide, by decide⟩, rfl⟩
theorem witness_LaunchedRunsKeepInvariant :
    ∃ s t, defaultConfig.Wf ∧ Memory.wf [(255, 9)] ∧ launch defaultConfig [(255, 9)] [0x01] = some s ∧
      core.run 1 s = .next t := ⟨_, _, by decide, by decide, rfl, rfl⟩
theorem witness_RunEndIsUnique : ∃ t, EndsIn sm t := ⟨_, by decide, 1, rfl⟩
theorem witness_ExitStatusTellsTheEndApart :
    (ExitStatuses.mk 1 3).Wf ∧ Inv sm ∧ Inv sm.halt ∧ Inv (sm.raise .decodeError 0) ∧
      Inv (sm.raise .boundsViolation 0) :=
  ⟨by decide, ⟨by decide, by decide, by decide, by decide⟩, ⟨by decide, by decide, by decide, by decide⟩,
    ⟨by decide, by decide, by decide, by decide⟩, ⟨by decide, by decide, by decide, by decide⟩⟩
theorem witness_BlocksRefineInstructions : sm.cfg.opcodeMap.Wf := by decide
theorem witness_StatusPortsTellTheState : Inv sm ∧ Inv (sm.raise .boundsViolation 0) :=
  ⟨⟨by decide, by decide, by decide, by decide⟩, ⟨by decide, by decide, by decide, by decide⟩⟩
theorem witness_OutPortShowsPrnValue :
    (∃ t, sm.fsm = .run ∧ exec (.prn 7) sm = .next t ∧ t.fsm = .run) ∧
      ∃ t, (sf 0).fsm = .run ∧ exec (.prn 8) (sf 0) = .next t ∧ t.fsm = .faulted :=
  ⟨⟨_, rfl, rfl, rfl⟩, ⟨_, rfl, rfl, rfl⟩⟩
theorem witness_FetchPortsPredictExceptions :
    sm.fsm = .run ∧ (fetchPorts (sf 254)).boundsErr = true ∧ (fetchPorts (start .fault 0 [(0, 0x54), (1, 8)])).boundsErr = true ∧
      (fetchPorts sm).boundsErr = false ∧ (fetchPorts sm).legal = false := by decide

end Sys2Proof.Tests
end

/-! Canonical memory (spec/10_state.md R27, log entry 4): its cells are what it reads. -/

namespace Sys2Proof.Machine

/-- A cell that a rising list lists is the one read at its address. -/
theorem Memory.get_of_mem {m : Memory} (h : m.Pairwise fun c d => c.1 < d.1) {c : Host.Cell} (hc : c ∈ m) :
    m.get c.1 = c.2 := by
  induction m with
  | nil => cases hc
  | cons d rest ih =>
    obtain ⟨hd, hrest⟩ := List.pairwise_cons.1 h
    rcases List.mem_cons.1 hc with rfl | hc
    · simp [Memory.get]
    · simpa [Memory.get, (hd c hc).ne] using ih hrest hc

/-- What reads as anything but an unlisted cell is listed. -/
theorem Memory.mem_of_get {m : Memory} {a : Nat} (h : m.get a ≠ unlistedByte) : (a, m.get a) ∈ m := by
  induction m with
  | nil => exact absurd rfl h
  | cons d rest ih =>
    obtain ⟨k, w⟩ := d
    by_cases hk : k = a
    · simp [Memory.get, hk]
    · simp only [Memory.get, hk, if_false] at h ⊢
      exact List.mem_cons_of_mem _ (ih h)

/-- A canonical memory lists only what another memory with the same 256 bytes lists. -/
theorem Memory.subset_of_get_eq {m n : Memory} (hm : m.wf) (h : ∀ a, a < 256 → m.get a = n.get a) : m ⊆ n := by
  intro c hc
  obtain ⟨hlt, hne⟩ := hm.2 c hc
  have hn : n.get c.1 = c.2 := by rw [← h c.1 hlt, Memory.get_of_mem hm.1 hc]
  simpa [hn] using Memory.mem_of_get (m := n) (a := c.1) (hn ▸ hne)

/-- Settles O10: two rising lists with the same members are the same list, and the members of a canonical memory are
what it reads. -/
theorem canonicalMemoryIsItsBytes : Obligations.CanonicalMemoryIsItsBytes := by
  intro m n hm hn h
  have : Std.Irrefl fun c d : Host.Cell => c.1 < d.1 := ⟨fun _ => lt_irrefl _⟩
  have : Std.Antisymm fun c d : Host.Cell => c.1 < d.1 := ⟨fun _ _ h h' => absurd h h'.asymm⟩
  exact List.Subset.antisymm_of_pairwise hm.1 hn.1 (Memory.subset_of_get_eq hm h)
    (Memory.subset_of_get_eq hn fun a ha => (h a ha).symm)

end Sys2Proof.Machine

/-! The frame of an instruction (spec/10_state.md R15, R21, R28, R37). -/

namespace Sys2Proof.Machine

variable {s t : State} {i : Instr}

/-- All that instruction i may change of registers, fl, memory and output from s to t. What it does to the fsm, the
fault record and the configuration is `exec_control_cases`. -/
structure Frame (i : Instr) (s t : State) : Prop where
  reg : ∀ r, r ∉ writtenRegs i → t.reg r = s.reg r
  fl  : t.fl = s.fl ∨ i.mnemonic = .cmp ∧ ∃ x y, t.fl = aluCmp x y
  mem : t.mem = s.mem ∨ (i.mnemonic = .push ∨ i.mnemonic = .call) ∧ ∃ p v, t.mem = (s.memWrite p v).mem
  out : t.out = s.out ∨ i.mnemonic = .prn ∧ ∃ v, t.out = s.out ++ [v]

theorem frame_raise (i : Instr) (s : State) (c : FaultCause) (ir : Byte) : Frame i s (s.raise c ir) :=
  ⟨fun _ _ => rfl, .inl rfl, .inl rfl, .inl rfl⟩

/-- Where pc goes is outside the frame. -/
theorem Frame.setPc (h : Frame i s t) (p : Byte) : Frame i s (t.setPc p) := ⟨h.reg, h.fl, h.mem, h.out⟩

/-- A write to a register of the column "writes" of R15 stays in the frame. -/
theorem Frame.setReg (h : Frame i s t) {j : Fin 8} (hj : j ∈ writtenRegs i) (v : Byte) : Frame i s (t.setReg j v) :=
  ⟨fun r hr => by
    rw [State.reg_setReg, if_neg (ne_of_mem_of_not_mem hj hr)]
    exact h.reg r hr, h.fl, h.mem, h.out⟩

theorem Frame.refl (i : Instr) (s : State) : Frame i s s := ⟨fun _ _ => rfl, .inl rfl, .inl rfl, .inl rfl⟩

/-- An operand's register, where the check passes, is the one R15 names by it. -/
theorem eq_lowIndex {b : Byte} {j : Fin 8} (h : s.regIndex b = some j) : j = lowIndex b :=
  (State.regIndex_eq_some.1 h).2

theorem exec_frame (h : exec i s = .next t) : Frame i s t := by
  cases i with
  | ldi a imm =>
    rcases execLdi_cases h with ⟨j, hj, p, -, rfl⟩ | rfl
    · exact ((Frame.refl _ s).setReg (by simp [writtenRegs, eq_lowIndex hj]) _).setPc p
    · exact frame_raise ..
  | prn a =>
    rcases execPrn_cases h with ⟨j, -, p, -, rfl⟩ | rfl
    · exact ⟨fun _ _ => rfl, .inl rfl, .inl rfl, .inr ⟨rfl, _, rfl⟩⟩
    · exact frame_raise ..
  | add a b =>
    rcases execAdd_cases h with ⟨j, k, hj, -, p, -, rfl⟩ | rfl
    · exact ((Frame.refl _ s).setReg (by simp [writtenRegs, eq_lowIndex hj]) _).setPc p
    · exact frame_raise ..
  | mul a b =>
    rcases execMul_cases h with ⟨j, k, hj, -, p, -, rfl⟩ | rfl
    · exact ((Frame.refl _ s).setReg (by simp [writtenRegs, eq_lowIndex hj]) _).setPc p
    · exact frame_raise ..
  | cmp a b =>
    rcases execCmp_cases h with ⟨j, k, -, -, p, -, rfl⟩ | rfl
    · exact ⟨fun _ _ => rfl, .inr ⟨rfl, _, _, rfl⟩, .inl rfl, .inl rfl⟩
    · exact frame_raise ..
  | push a =>
    rcases execPush_cases h with ⟨j, q, -, -, p, -, rfl⟩ | rfl
    · have hsp : Frame (.push a) s (s.setReg 7 q) := (Frame.refl _ s).setReg (by simp [writtenRegs]) q
      exact ⟨hsp.reg, .inl rfl, .inr ⟨.inl rfl, _, _, rfl⟩, .inl rfl⟩
    · exact frame_raise ..
  | pop a =>
    rcases execPop_cases h with ⟨j, q, u, hj, rfl, -, p, -, rfl⟩ | rfl
    · have hload := (Frame.refl (.pop a) s).setReg (j := j) (by simp [writtenRegs, eq_lowIndex hj]) (s.memRead s.sp)
      exact (hload.setReg (by simp [writtenRegs]) q).setPc p
    · exact frame_raise ..
  | call a =>
    rcases execCall_cases h with ⟨j, q, ra, -, -, -, rfl⟩ | rfl
    · have hsp : Frame (.call a) s (s.setReg 7 q) := (Frame.refl _ s).setReg (by simp [writtenRegs]) q
      exact ⟨hsp.reg, .inl rfl, .inr ⟨.inr rfl, _, _, rfl⟩, .inl rfl⟩
    · exact frame_raise ..
  | ret =>
    rcases execRet_cases h with ⟨q, -, rfl⟩ | rfl
    · exact ((Frame.refl _ s).setPc _).setReg (by simp [writtenRegs]) q
    · exact frame_raise ..
  | jmp a =>
    rcases execJmp_cases h with ⟨j, -, rfl⟩ | rfl
    · exact (Frame.refl _ s).setPc _
    · exact frame_raise ..
  | jne a =>
    rcases execJne_cases h with ⟨j, -, ⟨-, p, -, rfl⟩ | ⟨-, rfl⟩⟩ | rfl
    · exact (Frame.refl _ s).setPc p
    · exact (Frame.refl _ s).setPc _
    · exact frame_raise ..
  | hlt =>
    rw [execHlt_cases h]
    exact ⟨fun _ _ => rfl, .inl rfl, .inl rfl, .inl rfl⟩

/-- The mnemonic of an instruction that a step executes is the one its opcode byte decodes to (R66, R72). -/
theorem decodeOp_of_fetch {f : Fetched} (hf : fetch s = some f) (hd : s.decode f = some i) :
    decodeOp s.cfg.opcodeMap (s.memRead s.pc) = some i.mnemonic := by
  obtain ⟨-, rfl⟩ := fetch_eq_some.1 hf
  obtain ⟨op, hop, rfl⟩ := decodeFetched_eq_some.1 hd
  simpa using hop

/-- Settles O39, by the frame of each instruction. -/
theorem onlyTabulatedRegistersChange : Obligations.OnlyTabulatedRegistersChange :=
  fun _ _ _ h => (exec_frame h).reg

/-- Settles O42: a raise leaves the output, and an executed instruction appends only if it is PRN. -/
theorem outputGrowsOnlyByPrn : Obligations.OutputGrowsOnlyByPrn := by
  intro s t h
  obtain ⟨-, ⟨-, rfl⟩ | ⟨f, hf, ⟨-, rfl⟩ | ⟨i, hd, he⟩⟩⟩ := step_cases h
  · exact .inl rfl
  · exact .inl rfl
  · rcases (exec_frame he).out with ho | ⟨hprn, v, hv⟩
    · exact .inl ho
    · exact .inr ⟨v, hv, hprn ▸ decodeOp_of_fetch hf hd⟩

/-- Settles O43: the three ways a step raises enter FAULTED, and an instruction that completes leaves the record. -/
theorem faultRecordWrittenOnlyOnFault : Obligations.FaultRecordWrittenOnlyOnFault := by
  intro s t h
  obtain ⟨-, ⟨-, rfl⟩ | ⟨f, -, ⟨-, rfl⟩ | ⟨i, -, he⟩⟩⟩ := step_cases h
  · exact ⟨rfl, fun hf => absurd rfl hf⟩
  · exact ⟨rfl, fun hf => absurd rfl hf⟩
  · rcases exec_control_cases he with rfl | ⟨-, hcfg, hrecord⟩
    · exact ⟨rfl, fun hf => absurd rfl hf⟩
    · exact ⟨hcfg, fun _ => hrecord⟩

end Sys2Proof.Machine

/-! The invariant of spec/10_state.md R32. -/

namespace Sys2Proof

open Machine

variable {s t : State} {i : Instr}

theorem aluCmp_lt (a b : Byte) : (aluCmp a b).toNat < 8 := by
  unfold aluCmp
  split
  · decide
  · split <;> decide

/-- A taken exception keeps the invariant (R108). -/
theorem Inv.raise (h : Inv s) {c : FaultCause} (hc : c ≠ .none) (ir : Byte) : Inv (s.raise c ir) :=
  ⟨h.mem, h.flHigh, by simp [hc], h.cfg⟩

theorem Inv.exec (h : Inv s) (hr : s.fsm = .run) (he : exec i s = .next t) : Inv t := by
  have hframe := exec_frame he
  rcases exec_control_cases he with rfl | ⟨hfsm, hcfg, hcause, -, -⟩
  · exact h.raise (by decide) _
  · refine ⟨?mem, ?fl, ?cause, hcfg ▸ h.cfg⟩
    case mem =>
      rcases hframe.mem with hm | ⟨-, p, v, hm⟩ <;> rw [hm]
      · exact h.mem
      · exact State.wf_memWrite h.mem p v
    case fl =>
      rcases hframe.fl with hf | ⟨-, x, y, hf⟩ <;> rw [hf]
      · exact h.flHigh
      · exact aluCmp_lt x y
    case cause =>
      have hs : s.faultCause = .none := h.faultCause.2 (by simp [hr])
      have ht : t.fsm ≠ .faulted := by rw [hfsm, hr]; split <;> simp
      exact ⟨fun _ => ht, fun _ => hcause.trans hs⟩

theorem Inv.step (h : Inv s) (hs : step s = .next t) : Inv t := by
  obtain ⟨hr, ⟨-, rfl⟩ | ⟨f, -, ⟨-, rfl⟩ | ⟨i, -, he⟩⟩⟩ := step_cases hs
  · exact h.raise (by decide) _
  · exact h.raise (by decide) _
  · exact h.exec hr he

theorem Inv.run {k : Nat} (h : Inv s) (hk : core.run k s = .next t) : Inv t := by
  induction k generalizing s with
  | zero => exact run_zero.1 hk ▸ h
  | succ k ih =>
    obtain ⟨u, hu, hk⟩ := run_succ.1 hk
    exact ih (h.step hu) hk

/-- Settles O53: the invariant by the cases of a step, and the growth of the output by `outputGrowsOnlyByPrn`. -/
theorem stepKeepsInvariant : Obligations.StepKeepsInvariant := by
  intro s t h hs
  refine ⟨h.step hs, ?_⟩
  rcases outputGrowsOnlyByPrn s t hs with ho | ⟨v, ho, -⟩ <;> rw [ho]
  exact ⟨[v], rfl⟩

theorem inv_reset : Inv State.reset := ⟨Memory.wf_nil, by decide, by decide, by decide⟩

/-- Settles O52, on the reset values of R31. -/
theorem resetMeetsInvariant : Obligations.ResetMeetsInvariant := inv_reset

theorem inv_launch {c : Config} {memInit : Memory} {image : List Byte} (hc : c.Wf) (hm : memInit.wf)
    (h : launch c memInit image = some s) : Inv s := by
  obtain ⟨hlen, rfl⟩ : image.length ≤ 256 ∧ _ = s := by simpa [launch] using h
  exact ⟨loadImage_wf image hm (by omega), inv_reset.flHigh, inv_reset.faultCause, hc⟩

/-- Settles O54, by induction over the steps of the run. -/
theorem launchedRunsKeepInvariant : Obligations.LaunchedRunsKeepInvariant :=
  fun _ _ _ _ hc hm hl _ _ hk => (inv_launch hc hm hl).run hk

end Sys2Proof

/-! What an instruction does not see (spec/10_state.md R15, R22). -/

namespace Sys2Proof.Machine

variable {s t : State} {i : Instr} {u : State → State}

/-- An update u of the state that commutes with every write of instruction i and changes nothing that i reads: pc,
memory, the configuration, the registers of R15, and for JNE the flag E of s (R22). -/
structure Unseen (i : Instr) (s : State) (u : State → State) : Prop where
  pc       : ∀ x, (u x).pc = x.pc
  mem      : ∀ x, (u x).mem = x.mem
  cfg      : ∀ x, (u x).cfg = x.cfg
  reg      : ∀ r ∈ touchedRegs i, ∀ x, (u x).reg r = x.reg r
  flagE    : ∀ a, i = .jne a → flagE (u s).fl = flagE s.fl
  setReg   : ∀ r ∈ touchedRegs i, ∀ x v, (u x).setReg r v = u (x.setReg r v)
  setFl    : ∀ a b, i = .cmp a b → ∀ x v, (u x).setFl v = u (x.setFl v)
  setPc    : ∀ x p, (u x).setPc p = u (x.setPc p)
  memWrite : ∀ x p v, (u x).memWrite p v = u (x.memWrite p v)
  emit     : ∀ x v, (u x).emit v = u (x.emit v)
  halt     : ∀ x, (u x).halt = u x.halt
  raise    : ∀ x c ir, (u x).raise c ir = u (x.raise c ir)

/-- A register operand that passes its check is in R15's row. -/
theorem mem_touchedRegs {b : Byte} {j : Fin 8} (hb : b ∈ i.regOperands) (hj : s.regIndex b = some j) :
    j ∈ touchedRegs i := by
  have hrow : i.regOperands.map lowIndex ⊆ touchedRegs i := by
    cases i <;> simp [Instr.regOperands, touchedRegs]
  exact hrow (eq_lowIndex hj ▸ List.mem_map_of_mem hb)

namespace Unseen

variable (h : Unseen i s u) (x : State)
include h

theorem addr (v : Int) : (u x).addr v = x.addr v := by rw [State.addr, h.cfg, State.addr]
theorem regIndex (b : Byte) : (u x).regIndex b = x.regIndex b := by rw [State.regIndex, h.cfg, State.regIndex]
theorem opcode (op : Mnemonic) : (u x).opcode op = x.opcode op := by rw [State.opcode, h.cfg, State.opcode]
theorem memRead (a : Byte) : (u x).memRead a = x.memRead a := by rw [State.memRead, h.mem, State.memRead]

theorem advance (op : Mnemonic) : (u x).advance op = (x.advance op).map u := by
  rw [State.advance, State.advance, h.addr, h.opcode, h.pc, funext (h.setPc x), Option.map_map]
  rfl

theorem decSp (h7 : 7 ∈ touchedRegs i) : (u x).decSp = x.decSp.map u := by
  rw [State.decSp, State.decSp, h.addr, State.sp, h.reg 7 h7, Option.map_map]
  exact congrArg (Option.map · _) (funext (h.setReg 7 h7 x))

theorem incSp (h7 : 7 ∈ touchedRegs i) : (u x).incSp = x.incSp.map u := by
  rw [State.incSp, State.incSp, h.addr, State.sp, h.reg 7 h7, Option.map_map]
  exact congrArg (Option.map · _) (funext (h.setReg 7 h7 x))

/-- The check of a register operand comes out alike, and yields a register of R15's row. -/
theorem bind_regIndex {b : Byte} (hb : b ∈ i.regOperands) {k k' : Fin 8 → Option State}
    (hk : ∀ j ∈ touchedRegs i, k' j = (k j).map u) : (u s).regIndex b >>= k' = (s.regIndex b >>= k).map u := by
  rw [h.regIndex]
  cases hj : s.regIndex b with
  | none => rfl
  | some j => exact hk j (mem_touchedRegs hb hj)

/-- A meaning that the update commutes with, up to its end in `finish`. -/
theorem finish {op : Mnemonic} {r r' : Option State} (hr : r' = r.map u) (hf : finish s op r = .next t) :
    Machine.finish (u s) op r' = .next (u t) := by
  subst hr
  rcases finish_eq_next.1 hf with rfl | ⟨rfl, rfl⟩
  · rfl
  · simp [h.opcode, h.raise]

end Unseen

/-- The statements of a meaning after one that the update commutes with. -/
theorem bind_map_comm {o : Option State} {k k' : State → Option State} (hk : ∀ x, k' (u x) = (k x).map u) :
    o.map u >>= k' = (o >>= k).map u := by
  cases o with
  | none => rfl
  | some x => exact hk x

/-- What instruction i neither reads nor writes goes through it unchanged. -/
theorem Unseen.exec (h : Unseen i s u) (he : exec i s = .next t) : Machine.exec i (u s) = .next (u t) := by
  cases i with
  | ldi a imm =>
    refine h.finish (h.bind_regIndex (by simp [Instr.regOperands]) fun j hj => ?_) he
    rw [h.setReg j hj, h.advance]
  | prn a =>
    refine h.finish (h.bind_regIndex (by simp [Instr.regOperands]) fun j hj => ?_) he
    rw [h.reg j hj, h.emit, h.advance]
  | add a b =>
    refine h.finish (h.bind_regIndex (by simp [Instr.regOperands]) fun j hj =>
      h.bind_regIndex (by simp [Instr.regOperands]) fun k hk => ?_) he
    rw [h.reg j hj, h.reg k hk, h.setReg j hj, h.advance]
  | mul a b =>
    refine h.finish (h.bind_regIndex (by simp [Instr.regOperands]) fun j hj =>
      h.bind_regIndex (by simp [Instr.regOperands]) fun k hk => ?_) he
    rw [h.reg j hj, h.reg k hk, h.setReg j hj, h.advance]
  | cmp a b =>
    refine h.finish (h.bind_regIndex (by simp [Instr.regOperands]) fun j hj =>
      h.bind_regIndex (by simp [Instr.regOperands]) fun k hk => ?_) he
    rw [h.reg j hj, h.reg k hk, h.setFl a b rfl, h.advance]
  | push a =>
    have h7 : 7 ∈ touchedRegs (.push a) := by simp [touchedRegs]
    refine h.finish (h.bind_regIndex (by simp [Instr.regOperands]) fun j hj => ?_) he
    rw [h.decSp s h7]
    refine bind_map_comm fun x => ?_
    rw [State.sp, h.reg 7 h7, h.reg j hj, h.memWrite, h.advance, State.sp]
  | pop a =>
    have h7 : 7 ∈ touchedRegs (.pop a) := by simp [touchedRegs]
    refine h.finish (h.bind_regIndex (by simp [Instr.regOperands]) fun j hj => ?_) he
    rw [h.memRead, State.sp, h.reg 7 h7, h.setReg j hj, h.incSp _ h7]
    exact bind_map_comm fun x => h.advance x .pop
  | call a =>
    have h7 : 7 ∈ touchedRegs (.call a) := by simp [touchedRegs]
    refine h.finish (h.bind_regIndex (by simp [Instr.regOperands]) fun j hj => ?_) he
    rw [h.decSp s h7, h.addr, h.pc]
    refine bind_map_comm fun x => ?_
    cases s.addr (s.pc.toNat + 2) with
    | none => rfl
    | some ra => simp [h.reg 7 h7, h.reg j hj, h.memWrite, h.setPc]
  | ret =>
    have h7 : 7 ∈ touchedRegs .ret := by simp [touchedRegs]
    refine h.finish ?_ he
    rw [h.memRead, State.sp, h.reg 7 h7, h.setPc, h.incSp _ h7, State.sp]
  | jmp a =>
    refine h.finish (h.bind_regIndex (by simp [Instr.regOperands]) fun j hj => ?_) he
    rw [h.reg j hj, h.setPc, Option.map_some]
  | jne a =>
    refine h.finish (h.bind_regIndex (by simp [Instr.regOperands]) fun j hj => ?_) he
    rw [h.flagE a rfl, h.reg j hj, h.setPc, h.advance]
    split <;> rfl
  | hlt =>
    rw [execHlt_cases he, ← h.halt]
    rfl

theorem State.setReg_comm {j k : Fin 8} (hjk : j ≠ k) (s : State) (v w : Byte) :
    (s.setReg j v).setReg k w = (s.setReg k w).setReg j v := by
  have hval : j.val ≠ k.val := Fin.val_ne_of_ne hjk
  rw [State.setReg, State.setReg, State.setReg, State.setReg, Vector.set_comm _ _ hval]

/-- Settles O40: a register outside both columns of R15 is one the instruction does not see. -/
theorem untouchedRegistersDoNotMatter : Obligations.UntouchedRegistersDoNotMatter := by
  intro i s t r v hr he
  have hne : ∀ j ∈ touchedRegs i, r ≠ j := fun j hj => (ne_of_mem_of_not_mem hj hr).symm
  have hunseen : Unseen i s fun x => x.setReg r v :=
    { pc := fun _ => rfl, mem := fun _ => rfl, cfg := fun _ => rfl, flagE := fun _ _ => rfl
      reg := fun j hj x => by rw [State.reg_setReg, if_neg (hne j hj)]
      setReg := fun j hj x w => State.setReg_comm (hne j hj) x v w
      setFl := fun _ _ _ _ _ => rfl, setPc := fun _ _ => rfl, memWrite := fun _ _ _ => rfl, emit := fun _ _ => rfl
      halt := fun _ => rfl, raise := fun _ _ _ => rfl }
  exact hunseen.exec he

/-- No instruction that leaves fl alone sees it, except that JNE sees flag E (R22). -/
theorem unseen_setFl {f : Byte} (hcmp : ∀ a b, i ≠ .cmp a b) (hjne : ∀ a, i = .jne a → flagE f = flagE s.fl) :
    Unseen i s fun x => x.setFl f :=
  { pc := fun _ => rfl, mem := fun _ => rfl, cfg := fun _ => rfl, flagE := hjne, reg := fun _ _ _ => rfl
    setReg := fun _ _ _ _ => rfl, setFl := fun a b h => absurd h (hcmp a b), setPc := fun _ _ => rfl
    memWrite := fun _ _ _ => rfl, emit := fun _ _ => rfl, halt := fun _ => rfl, raise := fun _ _ _ => rfl }

/-- What CMP does before its end in `finish` does not depend on the earlier fl. -/
theorem execCmp_setFl (a b : Byte) (s : State) :
    ∃ r, execCmp a b s = finish s .cmp r ∧ ∀ f, execCmp a b (s.setFl f) = finish (s.setFl f) .cmp r :=
  ⟨_, rfl, fun _ => rfl⟩

/-- From another fl, a CMP that completes leads to the same state, and one that raises leaves that fl. -/
theorem execCmp_eq_next_setFl {a b : Byte} (h : execCmp a b s = .next t) :
    (∀ f, execCmp a b (s.setFl f) = .next t) ∨
      Trapped s .cmp t ∧ ∀ f, execCmp a b (s.setFl f) = .next (t.setFl f) := by
  obtain ⟨r, hr, hset⟩ := execCmp_setFl a b s
  rcases finish_eq_next.1 (hr ▸ h) with rfl | ⟨rfl, rfl⟩
  · exact .inl hset
  · exact .inr ⟨rfl, hset⟩

theorem exec_setFl {f : Byte} (hjne : ∀ a, i = .jne a → flagE f = flagE s.fl) (he : exec i s = .next t) :
    ∃ g, exec i (s.setFl f) = .next (t.setFl g) := by
  by_cases hcmp : ∃ a b, i = .cmp a b
  · obtain ⟨a, b, rfl⟩ := hcmp
    rcases execCmp_eq_next_setFl he with h | ⟨-, h⟩
    · exact ⟨t.fl, h f⟩
    · exact ⟨f, h f⟩
  · exact ⟨f, (unseen_setFl (fun a b h => hcmp ⟨a, b, h⟩) hjne).exec he⟩

/-- Settles O41: flag E is bit 0 of fl, and no instruction sees more of fl. -/
theorem onlyEqualFlagIsRead : Obligations.OnlyEqualFlagIsRead :=
  ⟨fun _ _ _ _ hf he => exec_setFl (fun _ _ => hf) he,
    fun _ _ _ _ hj he => exec_setFl (fun a h => absurd h (hj a)) he⟩

/-- Settles O36, by the frame of each instruction, and by what CMP does from another fl. -/
theorem onlyCmpWritesFlags : Obligations.OnlyCmpWritesFlags := by
  refine ⟨fun i s t he hi => ?_, fun a b f s t hr he => ?_⟩
  · rcases (exec_frame he).fl with h | ⟨hm, -⟩
    · exact h
    · cases i with
      | cmp a b => exact absurd rfl (hi a b)
      | _ => cases hm
  · rcases exec_control_cases he with rfl | ⟨hfsm, -⟩
    · simp
    · have hrun : t.fsm = .run := by simpa [hr] using hfsm
      rcases execCmp_eq_next_setFl he with h | ⟨rfl, -⟩
      · rw [if_neg (by simp [hrun])]
        exact h f
      · cases hrun

end Sys2Proof.Machine

/-! The blocks against the instruction rules (spec/92_eei_decisions.md D12). -/

namespace Sys2Proof.Machine

variable {s x : State} {g : Signals}

/-- Both designs end in the same `finish`. -/
theorem blockExec_eq_finish (i : Instr) (s : State) :
    blockExec i s = finish s i.mnemonic ((signals i s).bind fun g => applySignals g s) := by
  unfold blockExec
  cases (signals i s).bind fun g => applySignals g s <;> rfl

/-- What the blocks other than the program counter do with their ports. -/
def drive (g : Signals) (s : State) : State :=
  { s with
    regs := writeRegs g s.regs
    mem := match g.mem with
      | some (a, v) => s.mem.set a.toNat v
      | none => s.mem
    fl := g.fl.getD s.fl
    out := s.out ++ g.out.toList
    fsm := if g.halt then .halted else s.fsm }

theorem applySignals_eq_drive (g : Signals) (s : State) :
    applySignals g s = (nextPc g s).map (drive g s).setPc := rfl

/-- With adv_en and adv_len = 1 + n the program counter does the generic advance (R19, R75). -/
theorem applySignals_advance (hm : s.cfg.opcodeMap.Wf) (op : Mnemonic) (hld : g.ld = none)
    (hadv : g.adv = some (1 + op.operandCount)) (hx : drive g s = x) : applySignals g s = x.advance op := by
  subst hx
  have hpc : nextPc g s = s.addr (s.pc.toNat + 1 + operandCount (s.opcode op)) := by
    rw [State.opcode, hm.operandCount, nextPc, hld, hadv, add_assoc]
    simp
  rw [applySignals_eq_drive, hpc]
  rfl

/-- With ld_en the program counter takes the value on its port (R19). -/
theorem applySignals_load {v : Byte} (hld : g.ld = some v) (hx : drive g s = x) :
    applySignals g s = some (x.setPc v) := by
  rw [applySignals_eq_drive, nextPc, hld, hx]
  rfl

/-- PUSH and CALL read x[a] as it stands after the decrement. -/
theorem regAfterSp_eq (s : State) (v : Byte) (j : Fin 8) : regAfterSp s v j = (s.setReg 7 v).reg j := by
  simp [regAfterSp, eq_comm]

theorem State.sp_setSp (s : State) (v : Byte) : (s.setSp v).sp = v := by simp

/-- Settles O57. Each instruction makes the same checks in both designs, and after them the blocks hold what its
statements leave, before pc moves. -/
theorem blocksRefineInstructions : Obligations.BlocksRefineInstructions := by
  intro i s hm
  rw [blockExec_eq_finish]
  cases i with
  | ldi a imm =>
    refine congrArg (finish s .ldi) ?_
    simp only [signals, Option.bind_map]
    refine Option.bind_congr fun j _ => ?_
    exact applySignals_advance hm .ldi rfl rfl (by simp [drive, writeRegs, State.setReg])
  | prn a =>
    refine congrArg (finish s .prn) ?_
    simp only [signals, Option.bind_map]
    refine Option.bind_congr fun j _ => ?_
    exact applySignals_advance hm .prn rfl rfl (by simp [drive, writeRegs, State.emit])
  | add a b =>
    refine congrArg (finish s .add) ?_
    simp only [signals, Option.bind_eq_bind, Option.bind_assoc, Option.bind_some]
    refine Option.bind_congr fun j _ => Option.bind_congr fun k _ => ?_
    exact applySignals_advance hm .add rfl rfl (by simp [drive, writeRegs, State.setReg])
  | mul a b =>
    refine congrArg (finish s .mul) ?_
    simp only [signals, Option.bind_eq_bind, Option.bind_assoc, Option.bind_some]
    refine Option.bind_congr fun j _ => Option.bind_congr fun k _ => ?_
    exact applySignals_advance hm .mul rfl rfl (by simp [drive, writeRegs, State.setReg])
  | cmp a b =>
    refine congrArg (finish s .cmp) ?_
    simp only [signals, Option.bind_eq_bind, Option.bind_assoc, Option.bind_some]
    refine Option.bind_congr fun j _ => Option.bind_congr fun k _ => ?_
    exact applySignals_advance hm .cmp rfl rfl (by simp [drive, writeRegs, State.setFl])
  | push a =>
    refine congrArg (finish s .push) ?_
    simp only [signals, State.decSp, Option.bind_eq_bind, Option.bind_assoc, Option.bind_map, Option.bind_some]
    refine Option.bind_congr fun j _ => Option.bind_congr fun p _ => ?_
    rw [Function.comp_apply, regAfterSp_eq, State.sp_setSp]
    exact applySignals_advance hm .push rfl rfl (by simp [drive, writeRegs, State.setReg, State.memWrite])
  | pop a =>
    refine congrArg (finish s .pop) ?_
    simp only [signals, State.incSp, Option.bind_eq_bind, Option.bind_assoc, Option.bind_map, Option.bind_some]
    refine Option.bind_congr fun j _ => ?_
    rw [State.sp_eq (s.setReg _ _), State.reg_setReg]
    refine Option.bind_congr fun p _ => ?_
    exact applySignals_advance hm .pop rfl rfl (by simp [drive, writeRegs, State.setReg])
  | call a =>
    refine congrArg (finish s .call) ?_
    simp only [signals, State.decSp, Option.bind_eq_bind, Option.bind_assoc, Option.bind_map, Option.bind_some]
    refine Option.bind_congr fun j _ => Option.bind_congr fun p _ => Option.bind_congr fun ra _ => ?_
    rw [regAfterSp_eq, State.sp_setSp]
    exact applySignals_load rfl (by simp [drive, writeRegs, State.setReg, State.memWrite])
  | ret =>
    refine congrArg (finish s .ret) ?_
    simp only [signals, State.incSp, Option.bind_map]
    rw [Option.map_eq_bind]
    refine Option.bind_congr fun p _ => ?_
    exact applySignals_load (x := s.setSp p) rfl (by simp [drive, writeRegs, State.setReg])
  | jmp a =>
    refine congrArg (finish s .jmp) ?_
    simp only [signals, Option.bind_map]
    refine Option.bind_congr fun j _ => ?_
    exact applySignals_load rfl (by simp [drive, writeRegs])
  | jne a =>
    refine congrArg (finish s .jne) ?_
    simp only [signals, Option.bind_map]
    refine Option.bind_congr fun j _ => ?_
    cases he : flagE s.fl with
    | true => simpa [he] using applySignals_advance hm .jne rfl rfl (by simp [drive, writeRegs])
    | false => simpa [he] using applySignals_load rfl (by simp [drive, writeRegs])
  | hlt =>
    have hhalt : applySignals { halt := true } s = some s.halt := by
      simp [applySignals_eq_drive, nextPc, drive, writeRegs, State.halt, State.setPc]
    exact congrArg (finish s .hlt) hhalt

end Sys2Proof.Machine

/-! Memory accesses (spec/20_memory.md R35, R36, R37, R49). -/

namespace Sys2Proof.Machine

variable {s t : State} {a : Byte}

/-- Writes to other addresses do not move the byte at a (R35). -/
theorem State.memRead_foldl_memWrite {later : List (Byte × Byte)} (h : ∀ w ∈ later, w.1 ≠ a) (s : State) :
    (later.foldl (fun t w => t.memWrite w.1 w.2) s).memRead a = s.memRead a := by
  induction later generalizing s with
  | nil => rfl
  | cons w ws ih =>
    obtain ⟨hw, hws⟩ := List.forall_mem_cons.1 h
    rw [List.foldl_cons, ih hws, State.memRead_memWrite, if_neg hw]

/-- Settles O9, by what a read sees after one write and after writes to other addresses. -/
theorem memWriteSetsOneCellUntilRewritten : Obligations.MemWriteSetsOneCellUntilRewritten := by
  intro s a v
  refine ⟨fun c hc => ?_, rfl, fun later hlater => ?_⟩
  · rw [State.memRead_memWrite, if_neg hc.symm]
  · rw [State.memRead_foldl_memWrite hlater, State.memRead_memWrite, if_pos rfl]

theorem State.memRead_of_mem_eq (h : t.mem = s.mem) (c : Byte) : t.memRead c = s.memRead c :=
  congrArg (fun m : Memory => m.get c.toNat) h

/-- Settles O37, by the frame of each instruction. -/
theorem onlyPushAndCallWriteMemory : Obligations.OnlyPushAndCallWriteMemory := by
  intro i s t he hi
  rcases (exec_frame he).mem with hmem | ⟨hop, -⟩
  · exact State.memRead_of_mem_eq hmem
  · cases i with
    | push a => exact absurd rfl (hi a).1
    | call a => exact absurd rfl (hi a).2
    | _ => simp [Instr.mnemonic] at hop

/-- PUSH and CALL store one byte at addr(SP - 1), or raise and store none. -/
theorem exec_stack_store_mem (h : exec (.push a) s = .next t ∨ exec (.call a) s = .next t) :
    (∃ p v, s.addr (s.sp.toNat - 1) = some p ∧ t.mem = (s.memWrite p v).mem) ∨ t.mem = s.mem := by
  rcases h with h | h
  · rcases execPush_cases h with ⟨j, p, -, hp, q, -, rfl⟩ | rfl
    · exact .inl ⟨p, _, hp, rfl⟩
    · exact .inr rfl
  · rcases execCall_cases h with ⟨j, p, ra, -, hp, -, rfl⟩ | rfl
    · exact .inl ⟨p, _, hp, rfl⟩
    · exact .inr rfl

/-- Settles O38, by the one store of PUSH and CALL. -/
theorem stackStoresTouchOneByte : Obligations.StackStoresTouchOneByte := by
  intro a s t h
  rcases exec_stack_store_mem h with ⟨p, v, hp, hmem⟩ | hmem
  · refine ⟨fun p' hp' c hc => ?_, fun hnone => ?_⟩
    · obtain rfl : p = p' := Option.some.inj (hp.symm.trans hp')
      rw [State.memRead_of_mem_eq hmem, State.memRead_memWrite, if_neg hc.symm]
    · rw [hp] at hnone
      cases hnone
  · exact ⟨fun _ _ c _ => State.memRead_of_mem_eq hmem c, fun _ => State.memRead_of_mem_eq hmem⟩

/-- A PUSH that completes leaves at the new SP the value of its register, if that is not R7. -/
theorem execPush_memRead_sp (ha : lowIndex a ≠ 7) (h : execPush a s = .next t) (ht : t.fsm ≠ .faulted) :
    t.memRead t.sp = s.reg (lowIndex a) := by
  rcases execPush_cases h with ⟨j, p, hj, -, q, -, rfl⟩ | rfl
  · obtain rfl := eq_lowIndex hj
    simp [ha.symm]
  · exact absurd rfl ht

/-- Settles O48: the opcode byte fetched is the byte at pc, and that is where PUSH stored (D21). -/
theorem pushedByteIsFetched : Obligations.PushedByteIsFetched := by
  intro s t a f _ ha he ht hpc hf
  obtain ⟨-, rfl⟩ := fetch_eq_some.1 hf
  calc t.memRead t.pc = t.memRead t.sp := by rw [hpc]
    _ = s.reg (lowIndex a) := execPush_memRead_sp ha he (by simp [ht])

/-- The address an integer denotes is its value mod 256. -/
theorem toNat_ofInt_byte (v : Int) : ((BitVec.ofInt 8 v).toNat : Int) = v % 256 := by
  rw [BitVec.toNat_ofInt]
  omega

/-- Settles O11: `addr` answers v mod 256 exactly where its check passes, and v is v mod 256 in 0..255. -/
theorem addrWrapsOrChecks : Obligations.AddrWrapsOrChecks := by
  intro s v
  refine ⟨fun hmask => ?_, fun _ hv => ?_, fun hfault hv => ?_⟩
  · exact ⟨_, State.addr_of_ok (by simp [hmask]), toNat_ofInt_byte v⟩
  · exact ⟨_, State.addr_of_ok fun _ => hv, by rw [toNat_ofInt_byte]; omega⟩
  · refine State.addr_eq_none.2 fun hok => ?_
    have := hok hfault
    omega

end Sys2Proof.Machine

/-! Encoding and decoding (spec/30_encoding.md R52 to R69). -/

namespace Sys2Proof

variable {m : OpcodeMap} {i : Instr} {rest : List Byte}

/-- No instruction has three operands (R52, R54). -/
theorem Mnemonic.operandCount_le_two (op : Mnemonic) : op.operandCount ≤ 2 := by
  cases op <;> decide

/-- The operand bytes an instruction keeps are the first n of the two it is given (R55, R69). -/
theorem operandBytes_operandsOf (op : Mnemonic) (opA opB : Byte) :
    (operandsOf op opA opB).operandBytes = [opA, opB].take op.operandCount := by
  cases op <;> rfl

/-- An instruction is its mnemonic and its operand bytes. -/
theorem Instr.eq_of_mnemonic_of_operandBytes {j : Instr} (hop : i.mnemonic = j.mnemonic)
    (hbytes : i.operandBytes = j.operandBytes) : i = j := by
  rw [← operandsOf_operandBytes i [], ← operandsOf_operandBytes j [], hop, hbytes]

/-- Two pairs of fetched operand bytes that agree on the first n make the same instruction. -/
theorem operandsOf_eq_of_take_eq {op : Mnemonic} {x y x' y' : Byte}
    (h : [x, y].take op.operandCount = [x', y'].take op.operandCount) : operandsOf op x y = operandsOf op x' y' :=
  Instr.eq_of_mnemonic_of_operandBytes (by simp) (by simpa only [operandBytes_operandsOf] using h)

/-- Under a legal map the top two bits of the opcode byte count the operand bytes that follow it. -/
theorem OpcodeMap.Wf.operandCount_code (h : m.Wf) (i : Instr) :
    Sys2Proof.operandCount (m.code i.mnemonic) = i.operandBytes.length := by
  rw [h.operandCount, operandBytes_length]

/-- Under a legal map the top two bits of a legal byte are its mnemonic's operand count. -/
theorem OpcodeMap.Wf.operandCount_of_decodeOp (h : m.Wf) {ir : Byte} {op : Mnemonic} (hop : decodeOp m ir = some op) :
    Sys2Proof.operandCount ir = op.operandCount := by
  rw [← code_of_decodeOp hop, h.operandCount]

/-- All that a successful decoding of a sequence of bytes means, for any map. -/
theorem decodeBytes_eq_ok {bytes : List Byte} :
    decodeBytes m bytes = .ok (i, rest) ↔ ∃ ir tail op, bytes = ir :: tail ∧ decodeOp m ir = some op ∧
      operandCount ir ≤ tail.length ∧ operandsOf op (tail.getD 0 0) (tail.getD 1 0) = i ∧
      tail.drop (operandCount ir) = rest := by
  cases bytes with
  | nil => simp [decodeBytes]
  | cons ir tail =>
    cases hop : decodeOp m ir with
    | none => simp [decodeBytes, hop]
    | some op => by_cases hn : operandCount ir ≤ tail.length <;> simp [decodeBytes, hop, hn]

/-- With n bytes there, the two operand bytes read from a sequence begin with its first n bytes. -/
theorem take_getD_pair {n : Nat} {tail : List Byte} (h2 : n ≤ 2) (hn : n ≤ tail.length) :
    [tail.getD 0 0, tail.getD 1 0].take n = tail.take n := by
  match n, tail with
  | 0, _ => rfl
  | 1, _ :: _ => rfl
  | 2, _ :: _ :: _ => rfl

/-- Settles O6: the opcode byte gives back the mnemonic, its top two bits the number of operand bytes, and those the
instruction. -/
theorem decodeOfEncodeIsIdentity : Obligations.DecodeOfEncodeIsIdentity := by
  intro m i rest hm
  refine decodeBytes_eq_ok.2 ⟨m.code i.mnemonic, i.operandBytes ++ rest, i.mnemonic, rfl, decodeOp_code hm _, ?_,
    operandsOf_operandBytes i rest, ?_⟩
  · simp [hm.operandCount_code]
  · rw [hm.operandCount_code, List.drop_left]

/-- Settles O7: the opcode byte is the one the map gives the mnemonic, and the operand bytes and the rest are the two
parts of what follows it. -/
theorem decodedBytesAreTheEncoding : Obligations.DecodedBytesAreTheEncoding := by
  intro m bytes rest i hm h
  obtain ⟨ir, tail, op, rfl, hop, hlen, rfl, rfl⟩ := decodeBytes_eq_ok.1 h
  have hcount := hm.operandCount_of_decodeOp hop
  have hbytes : (operandsOf op (tail.getD 0 0) (tail.getD 1 0)).operandBytes = tail.take (operandCount ir) := by
    rw [operandBytes_operandsOf, ← hcount, take_getD_pair (hcount ▸ op.operandCount_le_two) hlen]
  rw [encodeWith, hbytes, mnemonic_operandsOf, code_of_decodeOp hop, List.cons_append, List.take_append_drop]

/-- Settles O1: a byte of the default map is looked up as its mnemonic, and every other byte differs from all twelve. -/
theorem decodeMatchesOpcodeMap : Obligations.DecodeMatchesOpcodeMap := by
  refine ⟨fun ir => ?_, fun m hm ir op => ⟨code_of_decodeOp, fun h => h ▸ decodeOp_code hm op⟩⟩
  by_cases h : ∃ op, defaultOpcodeMap.code op = ir
  · obtain ⟨op, rfl⟩ := h
    rw [decodeOp_code (by decide)]
    cases op <;> rfl
  · have hne : ∀ op ∈ Mnemonic.all, ir ≠ defaultOpcodeMap.code op := fun op _ he => h ⟨op, he.symm⟩
    rw [decodeOp_eq_none.2 fun op he => h ⟨op, he⟩]
    simp only [Mnemonic.all, List.forall_mem_cons, OpcodeMap.code, defaultOpcodeMap] at hne
    simp only [hne, if_false]

/-- Settles O2, by evaluating the decoder on the ten words. -/
theorem tableWordsDecode : Obligations.TableWordsDecode := by
  unfold Obligations.TableWordsDecode
  decide

/-- Settles O3: each encoding is by definition the map's byte and then the operand bytes. -/
theorem defaultEncodingsAreTabulated : Obligations.DefaultEncodingsAreTabulated :=
  fun _ _ => ⟨rfl, rfl, rfl, rfl, rfl, rfl, rfl, rfl, rfl, rfl, rfl, rfl⟩

/-- Settles O4: a legal byte's top two bits count at most 2 operands. -/
theorem threeOperandPatternIsIllegal : Obligations.ThreeOperandPatternIsIllegal := by
  intro m ir hm htop
  have hthree : operandCount ir = 3 := congrArg BitVec.toNat htop
  cases hop : decodeOp m ir with
  | none => rfl
  | some op =>
    have := hm.operandCount_of_decodeOp hop
    have := op.operandCount_le_two
    omega

/-- Settles O5, by the count of operand bytes in the opcode byte. -/
theorem encodingIsOpcodeThenCountedOperands : Obligations.EncodingIsOpcodeThenCountedOperands := by
  intro m i hm
  refine ⟨m.code i.mnemonic, i.operandBytes, rfl, (hm.operandCount_code i).symm, ?_⟩
  rw [operandBytes_length]
  exact i.mnemonic.operandCount_le_two

/-- Settles O8: with n operands only the first n fetched operand bytes enter the instruction. -/
theorem unusedOperandBytesAreIgnored : Obligations.UnusedOperandBytesAreIgnored := by
  intro m ir x x' y y' op hop
  simp only [decodeFetched, hop, Option.map_some, Option.some.injEq]
  exact ⟨fun h0 => operandsOf_eq_of_take_eq (by simp [h0]), fun h1 => operandsOf_eq_of_take_eq (by simp [h1])⟩

end Sys2Proof

namespace Sys2Proof.Machine

variable {s : State} {i : Instr} {f : Fetched} {b : Byte}

/-! Register indices (spec/30_encoding.md R57). -/

theorem lowIndex_val (b : Byte) : (lowIndex b).val = (b.extractLsb' 0 3).toNat := by
  simp [lowIndex, BitVec.extractLsb'_toNat]

/-- Settles O12: `reg` answers the low three bits exactly where its check passes, and a byte up to 7 is its low bits. -/
theorem regWrapsOrChecks : Obligations.RegWrapsOrChecks := by
  intro s b
  refine ⟨fun hmask => ?_, fun _ hb => ?_, fun hfault hb => ?_⟩
  · exact ⟨_, State.regIndex_of_ok (by simp [hmask]), lowIndex_val b⟩
  · exact ⟨_, State.regIndex_of_ok fun _ => hb, lowIndex_of_le hb⟩
  · exact State.regIndex_eq_none.2 fun hok => absurd (hok hfault) (by omega)

/-! The exceptions of a step and the ports of the fetch_decode_unit (spec/30_encoding.md R65). -/

theorem step_of_fetch_none (hr : s.fsm = .run) (hf : fetch s = none) :
    step s = .next (s.raise .boundsViolation (s.memRead s.pc)) := by
  simp [step, stepOf, cycle, hr, hf]

theorem step_of_decode_none (hr : s.fsm = .run) (hf : fetch s = some f) (hd : s.decode f = none) :
    step s = .next (s.raise .decodeError f.ir) := by
  simp [step, stepOf, cycle, hr, hf, hd]

theorem step_of_decode_some (hr : s.fsm = .run) (hf : fetch s = some f) (hd : s.decode f = some i) :
    step s = exec i s := by
  simp [step, stepOf, cycle, hr, hf, hd]

/-- An instruction that names no register by one of its register operands raises, whatever its other checks (R73). -/
theorem exec_of_regIndex_none (hb : b ∈ i.regOperands) (hn : s.regIndex b = none) :
    exec i s = .next (s.raise .boundsViolation (s.opcode i.mnemonic)) := by
  cases i with
  | ret | hlt => cases hb
  | add a c =>
    obtain rfl | rfl : b = a ∨ b = c := by simpa [Instr.regOperands] using hb
    all_goals simp [exec, execAdd, Instr.mnemonic, hn]
  | mul a c =>
    obtain rfl | rfl : b = a ∨ b = c := by simpa [Instr.regOperands] using hb
    all_goals simp [exec, execMul, Instr.mnemonic, hn]
  | cmp a c =>
    obtain rfl | rfl : b = a ∨ b = c := by simpa [Instr.regOperands] using hb
    all_goals simp [exec, execCmp, Instr.mnemonic, hn]
  | ldi a | prn a | push a | pop a | call a | jmp a | jne a =>
    obtain rfl : b = a := by simpa [Instr.regOperands] using hb
    simp [exec, execLdi, execPrn, execPush, execPop, execCall, execJmp, execJne, Instr.mnemonic, hn]

@[simp] theorem fetchPorts_ir (s : State) : (fetchPorts s).ir = s.memRead s.pc := rfl

theorem mem_namedRegisters :
    b ∈ namedRegisters s ↔ ∃ f i, fetch s = some f ∧ s.decode f = some i ∧ b ∈ i.regOperands := by
  unfold namedRegisters
  cases hf : fetch s with
  | none => simp
  | some f => cases hd : s.decode f <;> simp [hd]

theorem fetchPorts_boundsErr_iff :
    (fetchPorts s).boundsErr = true ↔ fetch s = none ∨ ∃ b ∈ namedRegisters s, s.regIndex b = none := by
  simp [fetchPorts]

theorem fetchPorts_legal_eq_false :
    (fetchPorts s).legal = false ↔ decodeOp s.cfg.opcodeMap (s.memRead s.pc) = none := by
  simp [fetchPorts]

/-- Settles O60: bounds_err is the fetch's raise or that of a named register's check, and an illegal byte that was
fetched does not decode. -/
theorem fetchPortsPredictExceptions : Obligations.FetchPortsPredictExceptions := by
  intro s hr
  refine ⟨fun hb => ?_, fun hb hl => ?_⟩
  · rcases fetchPorts_boundsErr_iff.1 hb with hf | ⟨b, hmem, hn⟩
    · exact step_of_fetch_none hr hf
    · obtain ⟨f, i, hf, hd, hmem⟩ := mem_namedRegisters.1 hmem
      have hir : s.opcode i.mnemonic = s.memRead s.pc := code_of_decodeOp (decodeOp_of_fetch hf hd)
      rw [step_of_decode_some hr hf hd, exec_of_regIndex_none hmem hn, hir]
      rfl
  · cases hf : fetch s with
    | none => exact absurd (fetchPorts_boundsErr_iff.2 (.inl hf)) (by simp [hb])
    | some f =>
      obtain ⟨-, rfl⟩ := fetch_eq_some.1 hf
      have hd : s.decode ⟨s.memRead s.pc, s.memRead (s.pc + 1), s.memRead (s.pc + 2)⟩ = none := by
        simp [State.decode, decodeFetched, fetchPorts_legal_eq_false.1 hl]
      exact step_of_decode_none hr hf hd

end Sys2Proof.Machine

/-! The step (spec/40_execution_cycle.md R70 to R83). -/

namespace Sys2Proof.Machine

variable {s t u : State} {i : Instr}

/-! What is fetched is executed (R71, R72, R74). -/

/-- Under `fault` the three reads of the fetch stay in the address range up to pc 253 (R55, R71). -/
theorem addrOk_pc_add_two_iff :
    AddrOk s (s.pc.toNat + 2) ↔ (s.cfg.boundsPolicy = .fault → s.pc.toNat ≤ 253) :=
  forall_congr' fun _ => by omega

theorem fetch_of_pc_le (hpc : s.cfg.boundsPolicy = .fault → s.pc.toNat ≤ 253) :
    fetch s = some { ir := s.memRead s.pc, opA := s.memRead (s.pc + 1), opB := s.memRead (s.pc + 2) } :=
  fetch_eq_some.2 ⟨addrOk_pc_add_two_iff.2 hpc, rfl⟩

/-- Settles O27: the fetch holds the three bytes, and the decode is that of these bytes. -/
theorem stepRunsTheDecodedInstruction : Obligations.StepRunsTheDecodedInstruction :=
  fun _ _ hr hpc hd => step_of_decode_some hr (fetch_of_pc_le hpc) hd

/-- Three bytes that begin with an encoding decode to the instruction, whatever the bytes after it are (R69). -/
theorem decodeFetched_of_encodeWith_isPrefix {m : OpcodeMap} {ir opA opB : Byte} (hm : m.Wf)
    (h : encodeWith m i <+: [ir, opA, opB]) : decodeFetched m ir opA opB = some i := by
  obtain ⟨rest, h⟩ := h
  obtain ⟨rfl, hrest⟩ : m.code i.mnemonic = ir ∧ i.operandBytes ++ rest = [opA, opB] := List.cons.inj h
  refine decodeFetched_eq_some.2 ⟨i.mnemonic, decodeOp_code hm _, ?_⟩
  simpa [hrest] using operandsOf_operandBytes i rest

/-- Settles O28: an encoding at pc is what the fetched bytes decode to. -/
theorem placedInstructionIsExecuted : Obligations.PlacedInstructionIsExecuted :=
  fun s i hm hr hpc hplaced =>
    stepRunsTheDecodedInstruction s i hr hpc (decodeFetched_of_encodeWith_isPrefix hm hplaced)

/-- Settles O29: the bytes of the word stand where the step fetches, under the map the word is decoded by. -/
theorem fetchWordIsTheNextInstruction : Obligations.FetchWordIsTheNextInstruction := by
  intro s nbits w i hmap hr hpc hd
  refine stepRunsTheDecodedInstruction (s.withFetchWord nbits w) i hr hpc ?_
  obtain ⟨h0, h1, h2⟩ := memRead_withFetchWord s nbits w
  rw [withFetchWord_cfg, withFetchWord_pc, hmap, h0, h1, h2]
  exact hd

/-! Leaving RUN (R70, R77 to R80, R103). -/

/-- Every instruction has a next state: where it raises, the one of its fault entry (R108). -/
theorem exec_exists_next (i : Instr) (s : State) : ∃ t, exec i s = .next t := by
  obtain ⟨r, hr⟩ := exec_eq_finish i s
  cases r with
  | none => exact ⟨_, hr⟩
  | some t => exact ⟨t, hr⟩

/-- Settles O34: in RUN the fetch raises, the decode raises, or an instruction is executed, each with a next state. -/
theorem stepExistsExactlyInRun : Obligations.StepExistsExactlyInRun := by
  refine fun s => ⟨fun ⟨t, h⟩ => (step_cases h).1, fun hr => ?_⟩
  cases hf : fetch s with
  | none => exact ⟨_, step_of_fetch_none hr hf⟩
  | some f =>
    cases hd : s.decode f with
    | none => exact ⟨_, step_of_decode_none hr hf hd⟩
    | some i => exact step_of_decode_some hr hf hd ▸ exec_exists_next i s

/-- From RUN, HLT always halts and no other instruction does. -/
theorem exec_halted_iff (hr : s.fsm = .run) (h : exec i s = .next t) : t.fsm = .halted ↔ i.mnemonic = .hlt := by
  cases i with
  | hlt => simp [execHlt_cases h, Instr.mnemonic]
  | _ =>
    rcases exec_control_cases h with rfl | ⟨hfsm, -⟩
    · simp [Instr.mnemonic]
    · simp [Instr.mnemonic, hfsm, hr]

/-- Settles O35: both raises enter FAULTED, and an executed instruction has the mnemonic of its opcode byte. -/
theorem onlyHltHalts : Obligations.OnlyHltHalts := by
  intro s t h
  rw [← addrOk_pc_add_two_iff]
  obtain ⟨hr, ⟨hf, rfl⟩ | ⟨f, hf, ⟨hd, rfl⟩ | ⟨i, hd, he⟩⟩⟩ := step_cases h
  · have hraise : ¬ AddrOk s (s.pc.toNat + 2) := fun hok => by simp [fetch_eq_some.2 ⟨hok, rfl⟩] at hf
    simp [hraise]
  · obtain ⟨-, rfl⟩ := fetch_eq_some.1 hf
    have hillegal : decodeOp s.cfg.opcodeMap (s.memRead s.pc) = none := by simpa [State.decode, decodeFetched] using hd
    simp [hillegal]
  · rw [exec_halted_iff hr he, decodeOp_of_fetch hf hd, Option.some_inj, and_iff_right (fetch_eq_some.1 hf).1]

/-- Two ends of runs from one state are the same state: the shorter run cannot go on (R77, R78). -/
theorem run_end_unique {j k : Nat} (ht : t.fsm ≠ .run) (hu : u.fsm ≠ .run) (hj : core.run j s = .next t)
    (hk : core.run k s = .next u) : t = u := by
  induction j generalizing s k with
  | zero =>
    obtain rfl := run_zero.1 hj
    exact run_of_not_run ht hk
  | succ j ih =>
    cases k with
    | zero =>
      obtain rfl := run_zero.1 hk
      exact (run_of_not_run hu hj).symm
    | succ k =>
      obtain ⟨x, hx, hj⟩ := run_succ.1 hj
      obtain ⟨y, hy, hk⟩ := run_succ.1 hk
      obtain rfl : x = y := by simpa [hx] using hy
      exact ih hj hk

/-- Settles O55, by induction over the steps of both runs. -/
theorem runEndIsUnique : Obligations.RunEndIsUnique :=
  fun _ _ _ ⟨ht, _, hj⟩ ⟨hu, _, hk⟩ => run_end_unique ht hu hj hk

/-! The generic advance (R75). -/

/-- An instruction that completes in RUN and does not load pc does the generic advance. -/
theorem exec_advanced (h : exec i s = .next t) (ht : t.fsm = .run) (hjump : ∀ a, i ≠ .call a ∧ i ≠ .jmp a)
    (hret : i ≠ .ret) (hjne : ∀ a, i = .jne a → flagE s.fl = true) : ∃ x, Advanced s i.mnemonic x t := by
  have hcompletes : ¬ Trapped s i.mnemonic t := by
    rintro rfl
    cases ht
  cases i with
  | ldi a imm =>
    obtain ⟨j, -, hadv⟩ := (execLdi_cases h).resolve_right hcompletes
    exact ⟨_, hadv⟩
  | prn a =>
    obtain ⟨j, -, hadv⟩ := (execPrn_cases h).resolve_right hcompletes
    exact ⟨_, hadv⟩
  | add a b =>
    obtain ⟨j, k, -, -, hadv⟩ := (execAdd_cases h).resolve_right hcompletes
    exact ⟨_, hadv⟩
  | mul a b =>
    obtain ⟨j, k, -, -, hadv⟩ := (execMul_cases h).resolve_right hcompletes
    exact ⟨_, hadv⟩
  | cmp a b =>
    obtain ⟨j, k, -, -, hadv⟩ := (execCmp_cases h).resolve_right hcompletes
    exact ⟨_, hadv⟩
  | push a =>
    obtain ⟨j, p, -, -, hadv⟩ := (execPush_cases h).resolve_right hcompletes
    exact ⟨_, hadv⟩
  | pop a =>
    obtain ⟨j, p, x, -, -, -, hadv⟩ := (execPop_cases h).resolve_right hcompletes
    exact ⟨_, hadv⟩
  | jne a =>
    obtain ⟨j, -, ⟨-, hadv⟩ | ⟨htaken, -⟩⟩ := (execJne_cases h).resolve_right hcompletes
    · exact ⟨_, hadv⟩
    · simp [hjne a rfl] at htaken
  | call a => exact absurd rfl (hjump a).1
  | ret => exact absurd rfl hret
  | jmp a => exact absurd rfl (hjump a).2
  | hlt => simp [execHlt_cases h] at ht

/-- Under a legal map the generic advance moves pc by 1 + n, modulo 256. -/
theorem Advanced.pc_eq {op : Mnemonic} (hm : s.cfg.opcodeMap.Wf) (h : Advanced s op u t) :
    t.pc = s.pc + BitVec.ofNat 8 (op.operandCount + 1) := by
  obtain ⟨p, hp, rfl⟩ := h
  rw [← ofInt_toNat_add, State.setPc_pc, (State.addr_eq_some.1 hp).2, State.opcode, hm.operandCount]
  congr 1
  omega

/-- Settles O44: such an instruction does the generic advance, and its encoding has 1 + n bytes. -/
theorem nonJumpsAdvanceByLength : Obligations.NonJumpsAdvanceByLength := by
  intro i s t hm _ he ht hjump hret hjne
  obtain ⟨x, hadv⟩ := exec_advanced he ht hjump hret hjne
  rw [hadv.pc_eq hm, encodeWith, List.length_cons, operandBytes_length]

/-! The status ports (R82). -/

theorem FaultCause.code_eq_zero {c : FaultCause} : c.code = 0 ↔ c = .none := by
  cases c <;> simp [FaultCause.code]

/-- Code 3 is not used (R25). -/
theorem FaultCause.code_ne_three (c : FaultCause) : c.code ≠ 3 := by
  cases c <;> decide

/-- Settles O58: each of the three states raises its own port, and the invariant ties the cause to FAULTED. -/
theorem statusPortsTellTheState : Obligations.StatusPortsTellTheState := by
  intro s hs
  refine ⟨?_, ?_, s.faultCause.code_ne_three⟩
  · cases hf : s.fsm <;> simp [statusPorts, hf]
  · calc (statusPorts s).faulted = true ↔ s.fsm = .faulted := by simp [statusPorts]
      _ ↔ s.faultCause ≠ .none := (not_iff_comm.1 hs.faultCause.symm).symm
      _ ↔ s.faultCause.code ≠ 0 := FaultCause.code_eq_zero.not.symm

end Sys2Proof.Machine

/-! LDI, PRN and the output port (spec/41_load_output.md R84 to R86). -/

namespace Sys2Proof.Machine

variable {s t : State} {i : Instr} {a : Byte} {op : Mnemonic} {n : Nat}

section AdvanceAfterRegIndex

/-! A meaning that checks one register operand, writes neither pc nor the configuration, and then does the generic
advance (R57, R75). n is the last pc from which the advance stays in the address range. -/

variable {k : Fin 8 → State} (hm : s.cfg.opcodeMap.Wf) (hcfg : ∀ j, (k j).cfg = s.cfg) (hpc : ∀ j, (k j).pc = s.pc)
  (hn : n + 1 + op.operandCount = 255)
include hm hcfg hpc hn

theorem finish_regIndex_advance_of_ok (h : s.cfg.boundsPolicy = .fault → a.toNat ≤ 7 ∧ s.pc.toNat ≤ n) :
    finish s op (s.regIndex a >>= fun j => (k j).advance op) =
      .next ((k (lowIndex a)).setPc (s.pc + BitVec.ofNat 8 (1 + op.operandCount))) := by
  have hadv := State.advance_of_ok (s := k (lowIndex a)) (op := op) (by rwa [hcfg]) fun hf => by
    rw [hcfg] at hf
    rw [hpc]
    have := (h hf).2
    omega
  rw [State.regIndex_of_ok fun hf => (h hf).1, Option.bind_eq_bind, Option.bind_some, hadv, hpc, finish_some]

theorem finish_regIndex_advance_of_not_ok (hf : s.cfg.boundsPolicy = .fault) (h : ¬ (a.toNat ≤ 7 ∧ s.pc.toNat ≤ n)) :
    finish s op (s.regIndex a >>= fun j => (k j).advance op) = .next (s.raise .boundsViolation (s.opcode op)) := by
  have hnone : (s.regIndex a >>= fun j => (k j).advance op) = none := by
    by_cases ha : a.toNat ≤ 7
    · have hfar : n < s.pc.toNat := not_le.1 fun hle => h ⟨ha, hle⟩
      rw [State.regIndex_of_ok fun _ => ha, Option.bind_eq_bind, Option.bind_some]
      exact State.advance_of_not_ok (by rwa [hcfg]) (by rwa [hcfg]) (by rw [hpc]; omega)
    · rw [State.regIndex_eq_none.2 fun hok => ha (hok hf), Option.bind_eq_bind, Option.bind_none]
  rw [hnone, finish_none]

end AdvanceAfterRegIndex

/-- Settles O15: LDI is one register check, one register write and the advance by 3. -/
theorem ldiLoadsImmediate : Obligations.LdiLoadsImmediate := fun s _ imm hm =>
  ⟨rfl,
    finish_regIndex_advance_of_ok (k := fun j => s.setReg j imm) hm (fun _ => rfl) (fun _ => rfl) rfl,
    finish_regIndex_advance_of_not_ok (k := fun j => s.setReg j imm) hm (fun _ => rfl) (fun _ => rfl) rfl⟩

/-- Settles O16: PRN is one register check, one value emitted and the advance by 2. -/
theorem prnEmitsRegister : Obligations.PrnEmitsRegister := fun s _ hm =>
  ⟨rfl,
    finish_regIndex_advance_of_ok (k := fun j => s.emit (s.reg j)) hm (fun _ => rfl) (fun _ => rfl) rfl,
    finish_regIndex_advance_of_not_ok (k := fun j => s.emit (s.reg j)) hm (fun _ => rfl) (fun _ => rfl) rfl⟩

/-- The port shows the first value that the step appends to the output. -/
theorem outPort_of_out_eq_append {vs : List Byte} (h : t.out = s.out ++ vs) : outPort s t = vs.head? := by
  rw [outPort, h, List.drop_left]

theorem outPort_of_out_eq (h : t.out = s.out) : outPort s t = none :=
  outPort_of_out_eq_append (vs := []) (by rw [h, List.append_nil])

/-- From RUN, an instruction enters FAULTED only by raising. -/
theorem trapped_of_faulted (hr : s.fsm = .run) (he : exec i s = .next t) (ht : t.fsm = .faulted) :
    Trapped s i.mnemonic t := by
  refine (exec_control_cases he).resolve_right fun ⟨hfsm, _⟩ => ?_
  rw [ht, hr] at hfsm
  split at hfsm <;> cases hfsm

/-- Settles O59: a PRN that completes appends x[a] alone; a raise, and by its frame any other instruction, leaves the
output. -/
theorem outPortShowsPrnValue : Obligations.OutPortShowsPrnValue := by
  intro i s t hr he
  refine ⟨?_, ?_⟩
  · rintro a rfl hrun
    rcases execPrn_cases he with ⟨j, hj, p, -, rfl⟩ | rfl
    · obtain rfl := eq_lowIndex hj
      exact outPort_of_out_eq_append (vs := [_]) rfl
    · cases hrun
  · rintro (hprn | hfaulted)
    · rcases (exec_frame he).out with hout | ⟨hop, -⟩
      · exact outPort_of_out_eq hout
      · cases i with
        | prn a => exact absurd rfl (hprn a)
        | _ => cases hop
    · obtain rfl := trapped_of_faulted hr he hfaulted
      exact outPort_of_out_eq rfl

end Sys2Proof.Machine

/-! alu_8bit, and ADD, MUL and CMP (spec/42_alu.md R88 to R93). -/

namespace Sys2Proof.Machine

/-- Settles O13: a byte made from a number is that number modulo 256. -/
theorem aluAddAndMulWrap : Obligations.AluAddAndMulWrap :=
  fun _ _ => ⟨BitVec.toNat_ofNat .., BitVec.toNat_ofNat ..⟩

/-- Settles O14, one branch of alu_cmp for each of the three orders. -/
theorem aluCmpIsUnsignedOneHot : Obligations.AluCmpIsUnsignedOneHot :=
  fun _ _ => ⟨fun heq => if_pos heq,
    fun hgt => (if_neg hgt.ne').trans (if_pos hgt),
    fun hlt => (if_neg hlt.ne).trans (if_neg hlt.not_gt)⟩

theorem aluAdd_eq_ofNat (x y : Byte) : aluAdd x y = BitVec.ofNat 8 ((x.toNat + y.toNat) % 256) := by
  rw [← (aluAddAndMulWrap x y).1, BitVec.ofNat_toNat, BitVec.setWidth_eq]

theorem aluMul_eq_ofNat (x y : Byte) : aluMul x y = BitVec.ofNat 8 (x.toNat * y.toNat % 256) := by
  rw [← (aluAddAndMulWrap x y).2, BitVec.ofNat_toNat, BitVec.setWidth_eq]

/-- alu_cmp with its orders asked in the sequence of R93. -/
theorem aluCmp_eq_ite (x y : Byte) :
    aluCmp x y = if x.toNat < y.toNat then 0b100 else if x.toNat > y.toNat then 0b010 else 0b001 := by
  obtain ⟨heq, hgt, hlt⟩ := aluCmpIsUnsignedOneHot x y
  split_ifs with hl hg
  · exact hlt hl
  · exact hgt hg
  · exact heq (le_antisymm (not_lt.1 hg) (not_lt.1 hl))

/-- A meaning that checks two register operands, writes neither pc nor the configuration, and then does the generic
advance (R57, R73, R75): where the second check passes, it is a meaning of one register operand. -/
theorem finish_two_regIndex_advance {s : State} {a b : Byte} {op : Mnemonic} {n : Nat} (k : Fin 8 → Fin 8 → State)
    (hm : s.cfg.opcodeMap.Wf) (hcfg : ∀ i j, (k i j).cfg = s.cfg) (hpc : ∀ i j, (k i j).pc = s.pc)
    (hn : n + 1 + op.operandCount = 255) :
    ((s.cfg.boundsPolicy = .fault → a.toNat ≤ 7 ∧ b.toNat ≤ 7 ∧ s.pc.toNat ≤ n) →
      finish s op (s.regIndex a >>= fun i => s.regIndex b >>= fun j => (k i j).advance op) =
        .next ((k (lowIndex a) (lowIndex b)).setPc (s.pc + BitVec.ofNat 8 (1 + op.operandCount)))) ∧
    (s.cfg.boundsPolicy = .fault → ¬ (a.toNat ≤ 7 ∧ b.toNat ≤ 7 ∧ s.pc.toNat ≤ n) →
      finish s op (s.regIndex a >>= fun i => s.regIndex b >>= fun j => (k i j).advance op) =
        .next (s.raise .boundsViolation (s.opcode op))) := by
  refine ⟨fun h => ?_, fun hf h => ?_⟩
  · rw [State.regIndex_of_ok (b := b) fun hf => (h hf).2.1]
    exact finish_regIndex_advance_of_ok (k := fun i => k i (lowIndex b)) hm (fun _ => hcfg ..) (fun _ => hpc ..) hn
      fun hf => ⟨(h hf).1, (h hf).2.2⟩
  · by_cases hb : b.toNat ≤ 7
    · rw [State.regIndex_of_ok (b := b) fun _ => hb]
      exact finish_regIndex_advance_of_not_ok (k := fun i => k i (lowIndex b)) hm (fun _ => hcfg ..)
        (fun _ => hpc ..) hn hf fun ⟨ha, hle⟩ => h ⟨ha, hb, hle⟩
    · have hnone : s.regIndex b = none := State.regIndex_eq_none.2 fun hok => hb (hok hf)
      simp only [hnone, Option.bind_eq_bind, Option.bind_none, Option.bind_fun_none, finish_none]

/-- Settles O17: ADD is two register checks, one register write and the advance by 3. -/
theorem addWritesSumModulo256 : Obligations.AddWritesSumModulo256 := by
  intro s a b hm
  rw [← aluAdd_eq_ofNat]
  exact ⟨rfl, finish_two_regIndex_advance (fun i j => s.setReg i (aluAdd (s.reg i) (s.reg j))) hm
    (fun _ _ => rfl) (fun _ _ => rfl) rfl⟩

/-- Settles O18: MUL is two register checks, one register write and the advance by 3. -/
theorem mulWritesProductModulo256 : Obligations.MulWritesProductModulo256 := by
  intro s a b hm
  rw [← aluMul_eq_ofNat]
  exact ⟨rfl, finish_two_regIndex_advance (fun i j => s.setReg i (aluMul (s.reg i) (s.reg j))) hm
    (fun _ _ => rfl) (fun _ _ => rfl) rfl⟩

/-- Settles O19: CMP is two register checks, one write of fl and the advance by 3. -/
theorem cmpWritesAllFlags : Obligations.CmpWritesAllFlags := by
  intro s a b hm
  rw [← aluCmp_eq_ite]
  exact ⟨rfl, finish_two_regIndex_advance (fun i j => s.setFl (aluCmp (s.reg i) (s.reg j))) hm
    (fun _ _ => rfl) (fun _ _ => rfl) rfl⟩

end Sys2Proof.Machine

/-! PUSH and POP (spec/43_stack.md R95 to R97). -/

namespace Sys2Proof.Machine

/-- A meaning that checks one register operand, then makes a check of its own that passes where P holds, and where both
pass does the generic advance from x, which has pc and configuration as before (R57, R73, R75). -/
theorem finish_regIndex_check_advance {s x : State} {a : Byte} {op : Mnemonic} {n : Nat} {P : Prop}
    {k : Fin 8 → Option State} (hm : s.cfg.opcodeMap.Wf) (hcfg : x.cfg = s.cfg) (hpc : x.pc = s.pc)
    (hn : n + 1 + op.operandCount = 255)
    (hpass : (s.cfg.boundsPolicy = .fault → P) → k (lowIndex a) = x.advance op)
    (hraise : s.cfg.boundsPolicy = .fault → ¬ P → k (lowIndex a) = none) :
    ((s.cfg.boundsPolicy = .fault → a.toNat ≤ 7 ∧ s.pc.toNat ≤ n ∧ P) →
      finish s op (s.regIndex a >>= k) = .next (x.setPc (s.pc + BitVec.ofNat 8 (1 + op.operandCount)))) ∧
    (s.cfg.boundsPolicy = .fault → ¬ (a.toNat ≤ 7 ∧ s.pc.toNat ≤ n ∧ P) →
      finish s op (s.regIndex a >>= k) = .next (s.raise .boundsViolation (s.opcode op))) := by
  have hbind : (s.regIndex a >>= k) = s.regIndex a >>= fun _ => k (lowIndex a) :=
    Option.bind_congr fun j hj => by rw [eq_lowIndex hj]
  rw [hbind]
  refine ⟨fun h => ?_, fun hf h => ?_⟩
  · rw [hpass fun hf => (h hf).2.2]
    exact finish_regIndex_advance_of_ok (k := fun _ => x) hm (fun _ => hcfg) (fun _ => hpc) hn
      fun hf => ⟨(h hf).1, (h hf).2.1⟩
  · by_cases hP : P
    · rw [hpass fun _ => hP]
      exact finish_regIndex_advance_of_not_ok (k := fun _ => x) hm (fun _ => hcfg) (fun _ => hpc) hn hf
        fun ⟨ha, hle⟩ => h ⟨ha, hle, hP⟩
    · rw [hraise hf hP, Option.bind_eq_bind, Option.bind_fun_none, finish_none]

/-- The state with x[i] pushed, pc where it was (R95). -/
def State.pushed (s : State) (i : Fin 8) : State :=
  (s.setReg 7 (s.sp - 1)).memWrite (s.sp - 1) (if i = 7 then s.sp - 1 else s.reg i)

/-- The state with x[i] popped, pc where it was (R96). -/
def State.popped (s : State) (i : Fin 8) : State :=
  { s with regs := if i = 7 then s.regs.set 7 (s.memRead s.sp + 1)
      else (s.regs.set i.val (s.memRead s.sp)).set 7 (s.sp + 1) }

section

variable (s : State) {i : Fin 8}

theorem State.pushed_sp (i : Fin 8) : (s.pushed i).sp = s.sp - 1 := by simp [State.pushed]

/-- SP holds the address of the most recently pushed byte (R97). -/
theorem State.pushed_memRead_sp (hi : i ≠ 7) : (s.pushed i).memRead (s.pushed i).sp = s.reg i := by
  rw [State.pushed_sp, State.pushed, State.memRead_memWrite, if_pos rfl, if_neg hi]

/-- POP is the load, then the increment of SP as the load left it, also where the load writes R7 (D17). -/
theorem State.popped_eq (i : Fin 8) :
    s.popped i = (s.setReg i (s.memRead s.sp)).setReg 7 ((s.setReg i (s.memRead s.sp)).sp + 1) := by
  rw [State.sp_eq (s.setReg i _), State.reg_setReg]
  by_cases h7 : i = 7
  · simp [State.popped, State.setReg, h7]
  · simp [State.popped, State.setReg, h7]

theorem State.popped_reg (hi : i ≠ 7) : (s.popped i).reg i = s.memRead s.sp := by
  simp [s.popped_eq i, hi.symm]

theorem State.popped_sp (hi : i ≠ 7) : (s.popped i).sp = s.sp + 1 := by
  simp [s.popped_eq i, hi]

end

/-- PUSH completes with x[a] pushed and pc advanced by 2, or raises where one of its three bounds fails (R95). -/
theorem exec_push (s : State) (a : Byte) (hm : s.cfg.opcodeMap.Wf) :
    ((s.cfg.boundsPolicy = .fault → a.toNat ≤ 7 ∧ s.pc.toNat ≤ 253 ∧ s.sp ≠ 0) →
      exec (.push a) s = .next ((s.pushed (lowIndex a)).setPc (s.pc + 2))) ∧
    (s.cfg.boundsPolicy = .fault → ¬ (a.toNat ≤ 7 ∧ s.pc.toNat ≤ 253 ∧ s.sp ≠ 0) →
      exec (.push a) s = .next (s.raise .boundsViolation (s.opcode .push))) := by
  refine finish_regIndex_check_advance (x := s.pushed (lowIndex a)) hm rfl rfl rfl (fun hsp => ?_) fun hf hsp => ?_
  · simp [State.decSp_of_ok hsp, State.pushed, eq_comm]
  · rw [State.decSp_of_not_ok hf (not_not.1 hsp)]
    rfl

/-- POP completes with x[a] popped and pc advanced by 2, or raises where one of its three bounds fails (R96). -/
theorem exec_pop (s : State) (a : Byte) (hm : s.cfg.opcodeMap.Wf) :
    ((s.cfg.boundsPolicy = .fault →
        a.toNat ≤ 7 ∧ s.pc.toNat ≤ 253 ∧ (if lowIndex a = 7 then s.memRead s.sp else s.sp) ≠ 255) →
      exec (.pop a) s = .next ((s.popped (lowIndex a)).setPc (s.pc + 2))) ∧
    (s.cfg.boundsPolicy = .fault →
      ¬ (a.toNat ≤ 7 ∧ s.pc.toNat ≤ 253 ∧ (if lowIndex a = 7 then s.memRead s.sp else s.sp) ≠ 255) →
      exec (.pop a) s = .next (s.raise .boundsViolation (s.opcode .pop))) := by
  have hload : (if lowIndex a = 7 then s.memRead s.sp else s.sp) =
      (s.setReg (lowIndex a) (s.memRead s.sp)).sp := by simp
  rw [hload]
  refine finish_regIndex_check_advance (x := s.popped (lowIndex a)) hm rfl rfl rfl (fun hsp => ?_) fun hf hsp => ?_
  · rw [State.incSp_of_ok hsp, s.popped_eq]
    rfl
  · rw [State.incSp_of_not_ok (s := s.setReg _ _) hf (not_not.1 hsp)]
    rfl

/-- Settles O20: PUSH is one register check, the check of the decremented SP, one store and the advance by 2. -/
theorem pushStoresAtDecrementedSp : Obligations.PushStoresAtDecrementedSp :=
  fun s a hm => ⟨rfl, exec_push s a hm⟩

/-- Settles O21: POP is one register check, one load, the check of SP as the load left it and the advance by 2. -/
theorem popLoadsThenIncrementsSp : Obligations.PopLoadsThenIncrementsSp :=
  fun s a hm => ⟨rfl, exec_pop s a hm⟩

/-- Settles O45: POP loads from the SP that PUSH left, where the pushed byte stands, and SP - 1 + 1 is SP. -/
theorem pushThenPopTransfers : Obligations.PushThenPopTransfers := by
  intro s a b hm ha hb h
  have hpush : exec (.push a) s = .next ((s.pushed (lowIndex a)).setPc (s.pc + 2)) :=
    (exec_push s a hm).1 fun hf => by
      obtain ⟨hale, -, hpc, hsp⟩ := h hf
      exact ⟨hale, by omega, hsp⟩
  set t := (s.pushed (lowIndex a)).setPc (s.pc + 2)
  have htpc : t.pc = s.pc + 2 := rfl
  have htsp : t.sp = s.sp - 1 := s.pushed_sp (lowIndex a)
  have hpop : exec (.pop b) t = .next ((t.popped (lowIndex b)).setPc (t.pc + 2)) :=
    (exec_pop t b hm).1 fun hf => by
      obtain ⟨-, hble, hpc, hsp⟩ := h hf
      refine ⟨hble, ?_, ?_⟩
      · rw [htpc]
        bv_omega
      · rw [if_neg hb, htsp]
        bv_omega
  refine ⟨t, _, hpush, hpop, ?_, ?_, ?_⟩
  · calc (t.popped (lowIndex b)).reg (lowIndex b) = t.memRead t.sp := t.popped_reg hb
      _ = s.reg (lowIndex a) := s.pushed_memRead_sp ha
  · calc (t.popped (lowIndex b)).sp = t.sp + 1 := t.popped_sp hb
      _ = s.sp := by rw [htsp, BitVec.sub_add_cancel]
  · calc t.pc + 2 = s.pc + (2 + 2) := by rw [htpc, BitVec.add_assoc]
      _ = s.pc + 4 := rfl

end Sys2Proof.Machine

/-! CALL, RET, JMP and JNE (spec/44_control_transfer.md R98 to R101). -/

namespace Sys2Proof.Machine

variable {s : State} {i : Instr} {a b : Byte}

/-! The bounds checks of the jumps (R36, R55, R57). -/

/-- The return address of CALL, which is also the third address of the fetch. -/
theorem State.addr_pc_add_two (h : s.cfg.boundsPolicy = .fault → s.pc.toNat ≤ 253) :
    s.addr (s.pc.toNat + 2) = some (s.pc + 2) := by
  rw [State.addr_of_ok (addrOk_pc_add_two_iff.2 h)]
  exact congrArg some (ofInt_toNat_add s.pc 2)

theorem State.addr_pc_add_two_eq_none (hf : s.cfg.boundsPolicy = .fault) (h : 253 < s.pc.toNat) :
    s.addr (s.pc.toNat + 2) = none :=
  State.addr_eq_none.2 fun hok => not_lt.2 (addrOk_pc_add_two_iff.1 hok hf) h

theorem fetchRaisesNearTop (s : State) : FetchRaisesNearTop s := by
  intro hr hf hpc
  refine step_of_fetch_none hr ?_
  simp [fetch, State.addr_pc_add_two_eq_none hf hpc]

theorem exec_of_seven_lt (hb : b ∈ i.regOperands) (hf : s.cfg.boundsPolicy = .fault) (h7 : 7 < b.toNat) :
    exec i s = .next (s.raise .boundsViolation (s.opcode i.mnemonic)) :=
  exec_of_regIndex_none hb (State.regIndex_eq_none.2 fun hok => not_lt.2 (hok hf) h7)

/-! CALL and RET (R98, R99). -/

/-- The state with the return address pushed and pc at x[i], which for R7 is the decremented SP (R98, D17). -/
def State.called (s : State) (i : Fin 8) : State :=
  ((s.setReg 7 (s.sp - 1)).memWrite (s.sp - 1) (s.pc + 2)).setPc (if i = 7 then s.sp - 1 else s.reg i)

theorem State.called_sp (s : State) (i : Fin 8) : (s.called i).sp = s.sp - 1 := by simp [State.called]

/-- SP holds the address of the return address. -/
theorem State.called_memRead_sp (s : State) (i : Fin 8) : (s.called i).memRead (s.called i).sp = s.pc + 2 := by
  rw [State.called_sp, State.called, State.memRead_setPc, State.memRead_memWrite, if_pos rfl]

theorem exec_call_of_ok (h : s.cfg.boundsPolicy = .fault → a.toNat ≤ 7 ∧ s.pc.toNat ≤ 253 ∧ s.sp ≠ 0) :
    exec (.call a) s = .next (s.called (lowIndex a)) := by
  have hreg : s.regIndex a = some (lowIndex a) := State.regIndex_of_ok fun hf => (h hf).1
  have hra : s.addr (s.pc.toNat + 2) = some (s.pc + 2) := State.addr_pc_add_two fun hf => (h hf).2.1
  have hsp : s.decSp = some (s.setReg 7 (s.sp - 1)) := State.decSp_of_ok fun hf => (h hf).2.2
  simp [exec, execCall, State.called, hreg, hra, hsp, eq_comm]

theorem exec_call_of_not_ok (hf : s.cfg.boundsPolicy = .fault)
    (h : ¬ (a.toNat ≤ 7 ∧ s.pc.toNat ≤ 253 ∧ s.sp ≠ 0)) :
    exec (.call a) s = .next (s.raise .boundsViolation (s.opcode .call)) := by
  by_cases ha : a.toNat ≤ 7
  · have hreg : s.regIndex a = some (lowIndex a) := State.regIndex_of_ok fun _ => ha
    by_cases hsp : s.sp = 0
    · simp [exec, execCall, hreg, State.decSp_of_not_ok hf hsp]
    · have hpc : 253 < s.pc.toNat := not_le.1 fun hle => h ⟨ha, hle, hsp⟩
      simp [exec, execCall, hreg, State.decSp_of_ok fun _ => hsp, State.addr_pc_add_two_eq_none hf hpc]
  · exact exec_of_seven_lt (i := .call a) (List.mem_singleton_self a) hf (not_le.1 ha)

/-- Settles O22: CALL is one register check, the check of the decremented SP, that of the return address, one store and
the load of pc. -/
theorem callStoresReturnAddressAndJumps : Obligations.CallStoresReturnAddressAndJumps :=
  fun _ _ => ⟨rfl, exec_call_of_ok, exec_call_of_not_ok⟩

theorem exec_ret_of_ok (h : s.cfg.boundsPolicy = .fault → s.sp ≠ 255) :
    exec .ret s = .next ((s.setPc (s.memRead s.sp)).setReg 7 (s.sp + 1)) :=
  congrArg (finish s .ret) (State.incSp_of_ok (s := s.setPc (s.memRead s.sp)) h)

theorem exec_ret_of_not_ok (hf : s.cfg.boundsPolicy = .fault) (h : s.sp = 255) :
    exec .ret s = .next (s.raise .boundsViolation (s.opcode .ret)) :=
  congrArg (finish s .ret) (State.incSp_of_not_ok (s := s.setPc (s.memRead s.sp)) hf h)

/-- Settles O23: RET is one load of pc and the check of the incremented SP. -/
theorem retLoadsPcThenIncrementsSp : Obligations.RetLoadsPcThenIncrementsSp :=
  fun s => ⟨rfl, exec_ret_of_ok, exec_ret_of_not_ok, fetchRaisesNearTop s⟩

/-- Settles O46: RET loads from the SP that CALL left, where the return address stands, and SP - 1 + 1 is SP. -/
theorem callThenRetReturns : Obligations.CallThenRetReturns := by
  refine fun s a h => ⟨_, exec_call_of_ok h, fun u hcfg hsp hread => ?_⟩
  have husp : u.sp = s.sp - 1 := hsp.trans (s.called_sp _)
  have hpolicy : u.cfg.boundsPolicy = s.cfg.boundsPolicy := congrArg Config.boundsPolicy hcfg
  refine ⟨_, exec_ret_of_ok fun hf => ?_, ?_, ?_⟩
  · obtain ⟨-, -, hne⟩ := h (hpolicy ▸ hf)
    rw [husp]
    bv_omega
  · exact hread.trans (s.called_memRead_sp _)
  · calc ((u.setPc (u.memRead u.sp)).setReg 7 (u.sp + 1)).sp = u.sp + 1 := State.reg_setReg ..
      _ = s.sp := by rw [husp, BitVec.sub_add_cancel]

/-! JMP (R100). -/

theorem exec_jmp_of_ok (h : s.cfg.boundsPolicy = .fault → a.toNat ≤ 7) :
    exec (.jmp a) s = .next (s.setPc (s.reg (lowIndex a))) := by
  simp [exec, execJmp, State.regIndex_of_ok h]

/-- Settles O24: JMP is one register check and the load of pc. -/
theorem jmpLoadsPcExactly : Obligations.JmpLoadsPcExactly :=
  fun s a => ⟨rfl, exec_jmp_of_ok, exec_of_seven_lt (i := .jmp a) (List.mem_singleton_self a), fetchRaisesNearTop s⟩

/-- A state that steps to itself never leaves. -/
theorem run_of_step_self (h : step s = .next s) (k : Nat) : core.run k s = .next s := by
  induction k with
  | zero => rfl
  | succ k ih => exact run_succ.2 ⟨s, h, ih⟩

/-- Settles O49: the step executes the JMP, which loads pc with its own value. -/
theorem jmpToItselfLoopsForever : Obligations.JmpToItselfLoopsForever := by
  intro s a hm hr h hop hopA htarget
  have hplaced : PlacedAtPc (.jmp a) s := ⟨[s.memRead (s.pc + 2)], by rw [hop, hopA]; rfl⟩
  refine run_of_step_self ?_
  calc step s = exec (.jmp a) s := placedInstructionIsExecuted s (.jmp a) hm hr (fun hf => (h hf).2) hplaced
    _ = .next (s.setPc (s.reg (lowIndex a))) := exec_jmp_of_ok fun hf => (h hf).1
    _ = .next s := by rw [htarget]; rfl

/-! JNE, alone and after CMP (R101). -/

theorem exec_jne_of_clear (h : s.cfg.boundsPolicy = .fault → a.toNat ≤ 7) (he : flagE s.fl = false) :
    exec (.jne a) s = .next (s.setPc (s.reg (lowIndex a))) := by
  simp [exec, execJne, State.regIndex_of_ok h, he]

theorem exec_jne_of_set (hm : s.cfg.opcodeMap.Wf)
    (h : s.cfg.boundsPolicy = .fault → a.toNat ≤ 7 ∧ s.pc.toNat ≤ 253) (he : flagE s.fl = true) :
    exec (.jne a) s = .next (s.setPc (s.pc + 2)) := by
  have hreg : s.regIndex a = some (lowIndex a) := State.regIndex_of_ok fun hf => (h hf).1
  have hadv : s.advance .jne = some (s.setPc (s.pc + 2)) :=
    State.advance_of_ok hm fun hf => Nat.add_le_add_right (h hf).2 2
  simp [exec, execJne, hreg, he, hadv]

/-- Settles O25: JNE is one register check, then the load of pc or the advance by 2, as bit E decides. -/
theorem jneJumpsWhereEqualIsClear : Obligations.JneJumpsWhereEqualIsClear :=
  fun s a hm => ⟨rfl, exec_jne_of_clear, exec_jne_of_set hm,
    exec_of_seven_lt (i := .jne a) (List.mem_singleton_self a), fetchRaisesNearTop s⟩

/-- Bit E is what tells the equality of the operands (R90). -/
theorem flagE_aluCmp (x y : Byte) : flagE (aluCmp x y) = decide (x = y) := by
  obtain ⟨heq, hgt, hlt⟩ := aluCmpIsUnsignedOneHot x y
  rcases Nat.lt_trichotomy x.toNat y.toNat with h | h | h
  · rw [hlt h, decide_eq_false (by rintro rfl; omega)]
    rfl
  · rw [heq h, decide_eq_true (BitVec.eq_of_toNat_eq h)]
    rfl
  · rw [hgt h, decide_eq_false (by rintro rfl; omega)]
    rfl

/-- Settles O47: CMP leaves in bit E whether the operands are equal, and JNE branches on that bit at pc + 3. -/
theorem cmpThenJneBranchesOnInequality : Obligations.CmpThenJneBranchesOnInequality := by
  intro s a b c hm h
  obtain ⟨-, hcompletes, -⟩ := cmpWritesAllFlags s a b hm
  rw [← aluCmp_eq_ite] at hcompletes
  set t := (s.setFl (aluCmp (s.reg (lowIndex a)) (s.reg (lowIndex b)))).setPc (s.pc + 3)
  have hcmp : exec (.cmp a b) s = .next t := hcompletes fun hf => by
    obtain ⟨ha, hb, -, hpc⟩ := h hf
    exact ⟨ha, hb, by omega⟩
  have hE : flagE t.fl = decide (s.reg (lowIndex a) = s.reg (lowIndex b)) := flagE_aluCmp _ _
  have hbounds : t.cfg.boundsPolicy = .fault → c.toNat ≤ 7 ∧ t.pc.toNat ≤ 253 := fun hf => by
    obtain ⟨-, -, hc, hpc⟩ := h hf
    refine ⟨hc, ?_⟩
    change (s.pc + 3).toNat ≤ 253
    bv_omega
  by_cases heq : s.reg (lowIndex a) = s.reg (lowIndex b)
  · refine ⟨t, _, hcmp, exec_jne_of_set hm hbounds (by simpa [heq] using hE), ?_⟩
    rw [if_pos heq]
    exact BitVec.add_assoc s.pc 3 2
  · refine ⟨t, _, hcmp, exec_jne_of_clear (fun hf => (hbounds hf).1) (by simpa [heq] using hE), ?_⟩
    rw [if_neg heq]
    rfl

end Sys2Proof.Machine

/-! HLT (spec/45_halt.md R103). -/

namespace Sys2Proof.Machine

/-- HLT makes no check, so it completes under both policies and at every pc. -/
theorem exec_hlt (s : State) : exec .hlt s = .next s.halt := rfl

/-- Settles O26: HLT moves the FSM and nothing else; what can raise is the fetch before it. -/
theorem hltHaltsInPlace : Obligations.HltHaltsInPlace :=
  fun s => ⟨rfl, exec_hlt s, fetchRaisesNearTop s⟩

end Sys2Proof.Machine

/-! The two exceptions, their precision and their priority (spec/60_exceptions.md R104 to R110). -/

namespace Sys2Proof.Machine

variable {s t : State} {i : Instr} {f : Fetched}

/-! What a step raises (R105 to R108). -/

theorem State.decode_eq_none : s.decode f = none ↔ ∀ op, s.cfg.opcodeMap.code op ≠ f.ir := by
  rw [State.decode, decodeFetched, Option.map_eq_none_iff, decodeOp_eq_none]

/-- Settles O30: the fetched bytes decode to nothing. -/
theorem illegalOpcodeRaisesDecodeError : Obligations.IllegalOpcodeRaisesDecodeError :=
  fun _ hr hpc hillegal => step_of_decode_none hr (fetch_of_pc_le hpc) (State.decode_eq_none.2 hillegal)

/-- An instruction of a step that raises puts into fault_ir the byte at pc, which is its opcode byte (log entry 9). -/
theorem eq_boundsEntry_of_faulted (hr : s.fsm = .run) (hf : fetch s = some f) (hd : s.decode f = some i)
    (he : exec i s = .next t) (ht : t.fsm = .faulted) : t = boundsEntry s (s.memRead s.pc) := by
  have hir : s.opcode i.mnemonic = s.memRead s.pc := code_of_decodeOp (decodeOp_of_fetch hf hd)
  rw [← hir]
  exact trapped_of_faulted hr he ht

/-- The three ways into FAULTED: the fetch, the decode, and a check of the decoded instruction. -/
theorem step_faulted_cases (h : step s = .next t) (ht : t.fsm = .faulted) :
    fetch s = none ∧ t = boundsEntry s (s.memRead s.pc) ∨
      (∀ op, s.cfg.opcodeMap.code op ≠ s.memRead s.pc) ∧ t = decodeEntry s (s.memRead s.pc) ∨
      ∃ f i, fetch s = some f ∧ s.decode f = some i ∧ exec i s = .next t ∧ t = boundsEntry s (s.memRead s.pc) := by
  obtain ⟨hr, hfetch | ⟨f, hf, ⟨hd, rfl⟩ | ⟨i, hd, he⟩⟩⟩ := step_cases h
  · exact .inl hfetch
  · obtain ⟨-, rfl⟩ := fetch_eq_some.1 hf
    exact .inr (.inl ⟨State.decode_eq_none.1 hd, rfl⟩)
  · exact .inr (.inr ⟨f, i, hf, hd, he, eq_boundsEntry_of_faulted hr hf hd he ht⟩)

/-- Settles O32: each of the three ways into FAULTED is the fault entry of its cause alone. -/
theorem exceptionsArePrecise : Obligations.ExceptionsArePrecise := by
  intro s t h ht
  rcases step_faulted_cases h ht with ⟨-, hbounds⟩ | ⟨-, hdecode⟩ | ⟨_, _, -, -, -, hbounds⟩
  · exact .inr hbounds
  · exact .inl hdecode
  · exact .inr hbounds

/-- Settles O31: near the top the fetch raises before the decode, elsewhere an illegal byte raises in the decode, and
of the ways into FAULTED a legal byte leaves those of BoundsViolation. -/
theorem exceptionsFollowPriority : Obligations.ExceptionsFollowPriority := by
  intro s t h
  have hr : s.fsm = .run := (step_cases h).1
  refine ⟨fun hfault hpc => ?fetch, fun hpc hillegal => ?decode, fun _ ⟨op, hop⟩ ht => ?checks⟩
  case fetch => exact Host.Outcome.next.inj (h.symm.trans (fetchRaisesNearTop s hr hfault hpc))
  case decode => exact Host.Outcome.next.inj (h.symm.trans (illegalOpcodeRaisesDecodeError s hr hpc hillegal))
  case checks =>
    rcases step_faulted_cases h ht with ⟨-, hbounds⟩ | ⟨hillegal, -⟩ | ⟨_, _, -, -, -, hbounds⟩
    · exact hbounds
    · exact absurd hop (hillegal op)
    · exact hbounds

/-! Under `mask` no bounds check raises (R36, R57, R106). -/

section Mask

variable (hmask : s.cfg.boundsPolicy = .mask)
include hmask

theorem State.addr_of_mask (v : Int) : s.addr v = some (BitVec.ofInt 8 v) :=
  State.addr_of_ok fun hfault => by cases hmask.symm.trans hfault

theorem State.regIndex_of_mask (b : Byte) : s.regIndex b = some (lowIndex b) :=
  State.regIndex_of_ok fun hfault => by cases hmask.symm.trans hfault

theorem fetch_ne_none_of_mask : fetch s ≠ none := by
  simp [fetch, State.addr_of_mask hmask]

/-- Every check passes, so the instruction completes, and only HLT moves the FSM. -/
theorem exec_of_mask (i : Instr) : ∃ t, exec i s = .next t ∧ t.fsm = if i = .hlt then .halted else s.fsm := by
  have haddr := State.addr_of_mask hmask
  have hreg := State.regIndex_of_mask hmask
  cases i with
  | ldi a _ | prn a | add a _ | mul a _ | cmp a _ =>
    simp [exec, execLdi, execPrn, execAdd, execMul, execCmp, State.advance, haddr, hreg]
  | push a | pop a | call a | ret =>
    simp [exec, execPush, execPop, execCall, execRet, State.decSp, State.incSp, State.advance, haddr, hreg]
  | jmp a => simp [exec, execJmp, hreg]
  | jne a =>
    cases he : flagE s.fl with
    | true => simp [exec, execJne, State.advance, haddr, hreg, he]
    | false => simp [exec, execJne, hreg, he]
  | hlt => exact ⟨s.halt, rfl, rfl⟩

end Mask

/-- Settles O33: under `mask` the fetch passes and so does every check of an instruction, which leaves the decode. -/
theorem maskNeverRaisesBoundsViolation : Obligations.MaskNeverRaisesBoundsViolation := by
  intro s t hmask h ht
  rcases step_faulted_cases h ht with ⟨hf, -⟩ | ⟨hillegal, rfl⟩ | ⟨_, i, -, -, he, -⟩
  · exact absurd hf (fetch_ne_none_of_mask hmask)
  · exact ⟨rfl, hillegal⟩
  · obtain ⟨u, hu, hfsm⟩ := exec_of_mask hmask i
    obtain rfl : t = u := Host.Outcome.next.inj (he.symm.trans hu)
    rw [ht, (step_cases h).1] at hfsm
    split at hfsm <;> cases hfsm

/-! The exit status of an ended run (R112). -/

section ExitStatus

variable (e : ExitStatuses)

theorem exitStatus_of_run (h : s.fsm = .run) : exitStatus e s = none := by
  simp [exitStatus, runOutcome, h]

theorem exitStatus_of_halted (h : s.fsm = .halted) : exitStatus e s = some 0 := by
  simp [exitStatus, runOutcome, h]

theorem exitStatus_of_decodeError (h : s.fsm = .faulted) (hc : s.faultCause = .decodeError) :
    exitStatus e s = some e.exitDecode := by
  simp [exitStatus, runOutcome, h, hc]

theorem exitStatus_of_boundsViolation (h : s.fsm = .faulted) (hc : s.faultCause = .boundsViolation) :
    exitStatus e s = some e.exitBounds := by
  simp [exitStatus, runOutcome, h, hc]

end ExitStatus

/-- FAULTED has one of the two causes of R104. -/
theorem faultCause_of_faulted (hs : Inv s) (h : s.fsm = .faulted) :
    s.faultCause = .decodeError ∨ s.faultCause = .boundsViolation := by
  cases hc : s.faultCause with
  | none => exact absurd h (hs.faultCause.1 hc)
  | decodeError => exact .inl rfl
  | boundsViolation => exact .inr rfl

/-- Settles O56: a status per FSM state and cause, and the invariant leaves FAULTED no other cause. -/
theorem exitStatusTellsTheEndApart : Obligations.ExitStatusTellsTheEndApart := by
  intro e s ⟨hdecode0, hdecode2, hbounds0, hbounds2, hne⟩ hs
  refine ⟨exitStatus_of_run e, exitStatus_of_halted e, exitStatus_of_decodeError e, exitStatus_of_boundsViolation e,
    fun h => ?_, hne.symm⟩
  rcases faultCause_of_faulted hs h with hc | hc
  · exact ⟨_, exitStatus_of_decodeError e h hc, hdecode0, hdecode2⟩
  · exact ⟨_, exitStatus_of_boundsViolation e h hc, hbounds0, hbounds2⟩

end Sys2Proof.Machine

/-! Reset and launch (spec/70_reset_and_hazards.md R119 to R121). -/

namespace Sys2Proof.Machine

@[simp] theorem applyReset_pc (s : State) : (applyReset s).pc = 0 := rfl
@[simp] theorem applyReset_memRead (s : State) (a : Byte) : (applyReset s).memRead a = s.memRead a := rfl

/-- Settles O50: the reset values are those of R31, and at pc 0 no fetch address leaves memory. -/
theorem resetGivesStartState : Obligations.ResetGivesStartState := by
  refine fun s => ⟨rfl, ?_⟩
  rw [fetch_of_pc_le (s := applyReset s) (by simp)]
  simp

theorem launch_of_length_le {image : List Byte} (h : image.length ≤ 256) (c : Config) (memInit : Memory) :
    launch c memInit image = some { State.reset with mem := loadImage memInit 0 image, cfg := c } := if_pos h

theorem launch_of_length_gt {image : List Byte} (h : 256 < image.length) (c : Config) (memInit : Memory) :
    launch c memInit image = none := if_neg (Nat.not_le.2 h)

/-- The image starts at address 0, so every address is at or after its first byte. -/
theorem loadImage_zero_get (image : List Byte) (m : Memory) (a : Nat) :
    (loadImage m 0 image).get a = (image[a]?).getD (m.get a) := by
  simp [loadImage_get]

/-- Settles O51: what a launched memory holds is `loadImage_zero_get`. -/
theorem launchPlacesImage : Obligations.LaunchPlacesImage :=
  fun c memInit image => ⟨fun hlong => launch_of_length_gt hlong c memInit, fun hfits =>
    ⟨_, launch_of_length_le hfits c memInit, fun a => loadImage_zero_get image memInit a.toNat, rfl⟩⟩

end Sys2Proof.Machine
